-- ==== Sys2Proof/Word.lean ====
section
/-! DEFINITION. The bit-vector types of the block's ports and registers (00_scope.md R7, R9, R10, R14). -/

namespace Sys2Proof

/-- A byte, 8 bits (00_scope.md R14). -/
abbrev Byte := BitVec 8

/-- A symbol, 15 bits (00_scope.md R7). -/
abbrev Symbol := BitVec 15

/-- A 16-bit code point as ENC_OUT carries it (10_state.md R42). -/
abbrev CodeUnit := BitVec 16

/-- A code point at the decoder's input, 21 bits (00_scope.md R14). -/
abbrev CodePoint := BitVec 21

/-- A code-point position, `POS_W` = 32 bits (00_scope.md R9). -/
abbrev Pos := BitVec 32

/-- A command word, `CMD_W` = 32 bits (00_scope.md R10). -/
abbrev CmdWord := BitVec 32

end Sys2Proof
end

