-- ==== Sys2Proof/Syntax.lean ====
section
/-! DEFINITION. The commands of the block (30_encoding.md R75), one constructor per row of spec/opcode_table.json, and the
lines of its assembler (30_encoding.md R80, R81). -/

namespace Sys2Proof

/-- The seven commands (30_encoding.md R75). The operand types are the operand fields' widths (R72, R73), so every value
of `Instr` is a legal command. -/
inductive Instr where
  /-- NOP (43_control.md R190) -/
  | nop
  /-- ENC_BYTE b (41_encoder.md R120) -/
  | encByte (b : Byte)
  /-- ENC_END (41_encoder.md R121) -/
  | encEnd
  /-- ENC_CLEAR (41_encoder.md R122) -/
  | encClear
  /-- DEC_CP cp (42_decoder.md R150) -/
  | decCp (cp : CodePoint)
  /-- DEC_END (42_decoder.md R153) -/
  | decEnd
  /-- DEC_CLEAR (42_decoder.md R155) -/
  | decClear
deriving DecidableEq, Repr

/-- The three command formats (30_encoding.md R71 to R73). -/
inductive Format where
  /-- format N: no operand -/
  | n
  /-- format B: a byte -/
  | b
  /-- format C: a code point -/
  | c
deriving DecidableEq, Repr

/-- The three fields of a command word (30_encoding.md R70). -/
structure CmdFields where
  op   : BitVec 4
  rsv  : BitVec 7
  opnd : BitVec 21
deriving DecidableEq, Repr

/-- One assembler line, operands as the numbers written (30_encoding.md R80, R81). -/
inductive AsmLine where
  | nop
  | encByte (b : Nat)
  | encEnd
  | encClear
  | decCp (cp : Nat)
  | decEnd
  | decClear
  /-- `.word w`, any 32-bit value -/
  | rawWord (w : Nat)
  /-- `enc.bytes b0, ..., bk` -/
  | encBytes (bs : List Nat)
  /-- `enc.stream b0, ..., bk`, possibly with no operand -/
  | encStream (bs : List Nat)
  /-- `dec.cps c0, ..., ck` -/
  | decCps (cps : List Nat)
  /-- `dec.stream c0, ..., ck`, possibly with no operand -/
  | decStream (cps : List Nat)
  /-- `dec.utf8 x0, ..., xk` -/
  | decUtf8 (xs : List Nat)
deriving DecidableEq, Repr

end Sys2Proof
end

