-- ==== Sys2Proof/Decode.lean ====
section
/-! DEFINITION. The command decoder `decode_cmd` (30_encoding.md R76), total on all 2^32 words and rejecting by name; the
encoder, written from the same rows; and the rows themselves as match and mask (R75). -/

namespace Sys2Proof

/-- Why a word names no command (30_encoding.md R77). The block records only that it was illegal (43_control.md R191); the
names are the model's own (DESIGN CHOICE, log entry 9). -/
inductive DecodeError where
  /-- RSV, bits [27:21], is not 0 -/
  | reservedField
  /-- OP, bits [31:28], is in 0x7..0xF -/
  | reservedOpcode
  /-- an OPND bit the format leaves unused is not 0 -/
  | operandBits
deriving DecidableEq, Repr

/-- `OP = w[31:28]` (30_encoding.md R70). -/
def opField (w : CmdWord) : BitVec 4 := w.extractLsb' 28 4

/-- `RSV = w[27:21]` (30_encoding.md R70). -/
def rsvField (w : CmdWord) : BitVec 7 := w.extractLsb' 21 7

/-- `OPND = w[20:0]` (30_encoding.md R70). -/
def opndField (w : CmdWord) : BitVec 21 := w.extractLsb' 0 21

/-- The three fields of a word (30_encoding.md R70). -/
def fieldsOf (w : CmdWord) : CmdFields := ⟨opField w, rsvField w, opndField w⟩

/-- `b = w[7:0]`, the operand of format B (30_encoding.md R74). -/
def operandByte (w : CmdWord) : Byte := w.extractLsb' 0 8

/-- `cp = w[20:0]`, the operand of format C (30_encoding.md R74). -/
def operandCp (w : CmdWord) : CodePoint := w.extractLsb' 0 21

/-- A format N word is `i` when OPND is 0 (30_encoding.md R71). -/
def decodeN (i : Instr) (opnd : BitVec 21) : Except DecodeError Instr :=
  if opnd = 0 then .ok i else .error .operandBits

/-- A format B word is ENC_BYTE when OPND[20:8] is 0 (30_encoding.md R72). -/
def decodeB (w : CmdWord) : Except DecodeError Instr :=
  if w.extractLsb' 8 13 = 0 then .ok (.encByte (operandByte w)) else .error .operandBits

/-- `decode_cmd` (30_encoding.md R76). -/
def decode (w : CmdWord) : Except DecodeError Instr :=
  if rsvField w ≠ 0 then .error .reservedField
  else
    match (opField w).toNat with
    | 0 => decodeN .nop (opndField w)
    | 1 => decodeB w
    | 2 => decodeN .encEnd (opndField w)
    | 3 => decodeN .encClear (opndField w)
    | 4 => .ok (.decCp (operandCp w))
    | 5 => decodeN .decEnd (opndField w)
    | 6 => decodeN .decClear (opndField w)
    | _ => .error .reservedOpcode

/-- The word of an opcode and an operand, RSV 0 (30_encoding.md R70). -/
def assembleWord (op : BitVec 4) (opnd : BitVec 21) : CmdWord :=
  op ++ (0 : BitVec 7) ++ opnd

/-- The word of a command (30_encoding.md R75, R80). -/
def encode : Instr → CmdWord
  | .nop => assembleWord 0x0 0
  | .encByte b => assembleWord 0x1 (b.setWidth 21)
  | .encEnd => assembleWord 0x2 0
  | .encClear => assembleWord 0x3 0
  | .decCp cp => assembleWord 0x4 cp
  | .decEnd => assembleWord 0x5 0
  | .decClear => assembleWord 0x6 0

/-- One row of the opcode map: a word `w` is this command when `w &&& mask = pat` (30_encoding.md R75). -/
structure OpcodeRow where
  mnemonic : String
  pat      : CmdWord
  mask     : CmdWord
deriving DecidableEq, Repr

/-- The opcode map (30_encoding.md R75). -/
def opcodeMap : List OpcodeRow :=
  [⟨"NOP", 0x00000000, 0xFFFFFFFF⟩, ⟨"ENC_BYTE", 0x10000000, 0xFFFFFF00⟩, ⟨"ENC_END", 0x20000000, 0xFFFFFFFF⟩,
   ⟨"ENC_CLEAR", 0x30000000, 0xFFFFFFFF⟩, ⟨"DEC_CP", 0x40000000, 0xFFE00000⟩, ⟨"DEC_END", 0x50000000, 0xFFFFFFFF⟩,
   ⟨"DEC_CLEAR", 0x60000000, 0xFFFFFFFF⟩]

/-- A word is selected by a row (30_encoding.md R75). -/
def OpcodeRow.selects (r : OpcodeRow) (w : CmdWord) : Bool := w &&& r.mask == r.pat

/-- The mnemonic of a command, as the opcode map spells it (30_encoding.md R75). -/
def mnemonicOf : Instr → String
  | .nop => "NOP"
  | .encByte _ => "ENC_BYTE"
  | .encEnd => "ENC_END"
  | .encClear => "ENC_CLEAR"
  | .decCp _ => "DEC_CP"
  | .decEnd => "DEC_END"
  | .decClear => "DEC_CLEAR"

/-- What the decoder reads from an instruction of `nbits` bits `w` (bits above `nbits` are 0). A command is one whole 32-bit
word (30_encoding.md R79), so no byte order enters. -/
def decodeTableWord (nbits w : Nat) : Option Instr :=
  match decode (BitVec.ofNat 32 (w % 2 ^ nbits)) with
  | .ok i => some i
  | .error _ => none

end Sys2Proof
end

