-- ==== Sys2Proof/Machine/State.lean ====
section
/-! DEFINITION. The state of the block (10_state.md R20 to R43), its reset value, and why a step may stop. -/

namespace Sys2Proof.Machine

/-- DEC_STATE (10_state.md R33). The value 3 is never written, so it is no constructor (10_state.md R44; log entry 7). -/
inductive DecState where
  /-- taking code points, no marker seen yet; code 0 -/
  | run
  /-- a valid padding marker has been taken; code 1 -/
  | padded
  /-- a FormatError has been recorded; code 2 -/
  | error
deriving DecidableEq, Repr

/-- ERR_KIND (10_state.md R36). The value 3 is never written, so it is no constructor (log entry 7). -/
inductive ErrKind where
  /-- no error; code 0 -/
  | none
  /-- InvalidLane; code 1 -/
  | invalidLane
  /-- MisplacedOrInvalidPadding; code 2 -/
  | misplacedOrInvalidPadding
deriving DecidableEq, Repr

/-- An element of DEC_RESP (10_state.md R42, 30_encoding.md R85). -/
inductive Token where
  /-- `OK` -/
  | ok
  /-- `ERR(kind, pos, cp)` -/
  | err (kind : ErrKind) (pos : Pos) (cp : CodePoint)
deriving DecidableEq, Repr

/-- The registers of the encoder engine (10_state.md R28, R29). -/
structure EncEngine where
  /-- ENC_ACC[13:0] -/
  acc : BitVec 14
  /-- ENC_CNT[3:0] -/
  cnt : BitVec 4
deriving DecidableEq, Repr

/-- The registers of the decoder engine and the error record (10_state.md R31 to R36). -/
structure DecEngine where
  /-- DEC_ACC[6:0] -/
  acc     : BitVec 7
  /-- DEC_CNT[2:0] -/
  cnt     : BitVec 3
  /-- DEC_HOLD[7:0] -/
  hold    : Byte
  /-- DEC_HOLD_V -/
  holdV   : Bool
  /-- DEC_STATE[1:0] -/
  state   : DecState
  /-- DEC_POS[31:0] -/
  pos     : Pos
  /-- DEC_MARK_POS[31:0] -/
  markPos : Pos
  /-- DEC_MARK_D[3:0] -/
  markD   : BitVec 4
  /-- ERR_KIND[1:0] -/
  errKind : ErrKind
  /-- ERR_POS[31:0] -/
  errPos  : Pos
  /-- ERR_CP[20:0] -/
  errCp   : CodePoint
deriving DecidableEq, Repr

/-- What the host can do to the block between commands that changes its state: present a command word, or assert reset
(20_memory.md R53, R62). Status reads and drains change nothing (R58, R54) and are functions of the state. -/
inductive HostMove where
  /-- present one 32-bit word, legal or not -/
  | command (w : CmdWord)
  /-- assert reset (70_reset_and_hazards.md R250) -/
  | reset
deriving DecidableEq, Repr

/-- The whole state: two independent engines and one global flag (10_state.md R20), three output streams (R41, R42), and
the model's own `hostMoves`, what the host has still to present (R23: the sequence is the host's; log entry 1). -/
structure State where
  /-- the encoder engine: ENC_ACC, ENC_CNT -/
  enc       : EncEngine
  /-- the decoder engine and the error record -/
  dec       : DecEngine
  /-- ILLEGAL (10_state.md R37) -/
  illegal   : Bool
  /-- ENC_OUT, oldest element first -/
  encOut    : List CodeUnit
  /-- DEC_OUT, oldest element first -/
  decOut    : List Byte
  /-- DEC_RESP, oldest element first -/
  decResp   : List Token
  /-- the model's own field: the host's moves not yet performed, next one first -/
  hostMoves : List HostMove
deriving DecidableEq, Repr

/-- The encoder engine after reset (10_state.md R43). -/
def EncEngine.reset : EncEngine := { acc := 0, cnt := 0 }

/-- The decoder engine after reset (10_state.md R43). -/
def DecEngine.reset : DecEngine :=
  { acc := 0, cnt := 0, hold := 0, holdV := false, state := .run, pos := 0, markPos := 0, markD := 0,
    errKind := .none, errPos := 0, errCp := 0 }

/-- The machine right after reset (10_state.md R43, 70_reset_and_hazards.md R250), with no host move placed (log entry 1). -/
def State.reset : State :=
  { enc := EncEngine.reset, dec := DecEngine.reset, illegal := false, encOut := [], decOut := [], decResp := [],
    hostMoves := [] }

/-- Why a step could stop with a fault. There is no constructor: every command word has a defined step from every state, and
nothing is stuck (70_reset_and_hazards.md R265); a FormatError and an IllegalCommand are recorded and the block goes on
(60_exceptions.md R220; log entry 8). -/
inductive Fault where
deriving DecidableEq, Repr

/-- Why a step could refuse. -/
inductive Refusal where
  /-- Raised only by an arm of `exec` whose instruction has no meaning yet; no arm does. Safe: a claim about a next state
  says nothing about a refusal. -/
  | notModelled (mnemonic : String)
deriving DecidableEq, Repr

end Sys2Proof.Machine
end

