-- ==== Sys2Proof/Machine/Ops.lean ====
section
/-! DEFINITION. The named operations over the state: emitting on the streams (20_memory.md R54), the hold-back register
(10_state.md R32), taking an error (60_exceptions.md R224, 43_control.md R191), the ways back from it (60_exceptions.md
R226), and reset (70_reset_and_hazards.md R250). -/

namespace Sys2Proof.Machine

/-- `Emit(ENC_OUT, v)` (00_scope.md R13, 20_memory.md R54). -/
def emitEnc (v : CodeUnit) (s : State) : State := { s with encOut := s.encOut ++ [v] }

/-- `Emit(DEC_OUT, b)` (00_scope.md R13, 20_memory.md R54). -/
def emitDec (b : Byte) (s : State) : State := { s with decOut := s.decOut ++ [b] }

/-- `Emit(DEC_RESP, t)` (00_scope.md R13, 20_memory.md R54). -/
def emitResp (t : Token) (s : State) : State := { s with decResp := s.decResp ++ [t] }

/-- Write the encoder engine's registers. -/
def setEnc (e : EncEngine) (s : State) : State := { s with enc := e }

/-- Write the decoder engine's registers. -/
def setDec (d : DecEngine) (s : State) : State := { s with dec := d }

/-- Emit the held byte when there is one (42_decoder.md R150, R153). -/
def emitHeld (s : State) : State := if s.dec.holdV then emitDec s.dec.hold s else s

/-- TAKING A FORMAT ERROR: `raise FormatError(kind, pos, cp)`. DEC_STATE and the error record are written and nothing else;
no control transfer (60_exceptions.md R224). -/
def raiseFormatError (kind : ErrKind) (pos : Pos) (cp : CodePoint) (s : State) : State :=
  setDec { s.dec with state := .error, errKind := kind, errPos := pos, errCp := cp } s

/-- TAKING AN ILLEGAL COMMAND: ILLEGAL <- 1 and nothing else (43_control.md R191). -/
def raiseIllegal (s : State) : State := { s with illegal := true }

/-- The encoder engine cleared (41_encoder.md R121, R122). -/
def clearEncoder (s : State) : State := setEnc { acc := 0, cnt := 0 } s

/-- The decoder engine and the error record cleared: the way back from an error (42_decoder.md R153, R155;
60_exceptions.md R226). -/
def clearDecoder (s : State) : State :=
  setDec { acc := 0, cnt := 0, hold := 0, holdV := false, state := .run, pos := 0, markPos := 0, markD := 0,
           errKind := .none, errPos := 0, errCp := 0 } s

/-- Reset between commands: every register at its reset value, the streams empty; the host's further moves are the host's
(70_reset_and_hazards.md R250; log entry 3). -/
def resetBlock (s : State) : State := { State.reset with hostMoves := s.hostMoves }

/-- The state once the host's next move has been taken off the list (log entry 1). -/
def withMoves (ms : List HostMove) (s : State) : State := { s with hostMoves := ms }

end Sys2Proof.Machine
end

