-- ==== Sys2Proof/Machine/ControlCommands.lean ====
section
/-! DEFINITION. The control command NOP (43_control.md R190). -/

namespace Sys2Proof.Machine

/-- NOP: no read, no write, no emit (43_control.md R190). -/
def execNop (s : State) : Host.Outcome State Fault Refusal := .next s

end Sys2Proof.Machine
end

