-- ==== Sys2Proof/Machine/Operands.lean ====
section
/-! DEFINITION. How an operand joins an engine's pending bits: the widened temporaries of 41_encoder.md R120 and
42_decoder.md R150, as unbounded naturals, and their slices (00_scope.md R12). -/

namespace Sys2Proof.Machine

/-- `v[lo+w-1 : lo]`, `w` bits of a natural (00_scope.md R12). -/
def slice (v lo w : Nat) : BitVec w := BitVec.ofNat w (v >>> lo)

/-- `pending | (operand << count)`: new bits go above the pending ones (20_memory.md R50, R52). -/
def joinBits (pending count operand : Nat) : Nat := pending ||| (operand <<< count)

/-- ENC_BYTE's `ENC_ACC | (b << ENC_CNT)` (41_encoder.md R120). -/
def encJoin (e : EncEngine) (b : Byte) : Nat := joinBits e.acc.toNat e.cnt.toNat b.toNat

/-- DEC_CP's `DEC_ACC | (s << DEC_CNT)` (42_decoder.md R150). -/
def decJoin (d : DecEngine) (s : Symbol) : Nat := joinBits d.acc.toNat d.cnt.toNat s.toNat

end Sys2Proof.Machine
end

