-- ==== Sys2Proof/Machine/TagFunctions.lean ====
section
/-! DEFINITION. The combinational sub-blocks: the lane-tag encoder and decoder and the padding-marker logic
(40_tag_functions.md R100 to R110), over the constant tables of 10_state.md R25 to R27. -/

namespace Sys2Proof.Machine

/-- BASE_CHAR = 0x62 (00_scope.md R8, 10_state.md R27; log entry 12). -/
def baseChar : Nat := 0x62

/-- The ROM LANE_PREFIX, indexed by a symbol's top-3 value (10_state.md R25; log entry 12). -/
def lanePrefixRom : List (BitVec 4) := [0x8, 0x9, 0x4, 0xB, 0xC, 0x5, 0x6, 0x7]

/-- `LANE_PREFIX[t]` (10_state.md R25). -/
def lanePrefix (t : BitVec 3) : BitVec 4 := lanePrefixRom.getD t.toNat 0

/-- An entry of NIBBLE_CLASS (10_state.md R26). -/
inductive NibbleClass where
  /-- `DATA(t)`: a data nibble and its symbol's top-3 value -/
  | data (t : BitVec 3)
  /-- `PAD`: the padding nibble -/
  | pad
  /-- `INVALID`: an unassigned nibble -/
  | invalid
deriving DecidableEq, Repr

/-- The ROM NIBBLE_CLASS, indexed by a code point's bits [15:12] (10_state.md R26). -/
def nibbleClassRom : List NibbleClass :=
  [.pad, .invalid, .invalid, .invalid, .data 2, .data 5, .data 6, .data 7,
   .data 0, .data 1, .invalid, .data 3, .data 4, .invalid, .invalid, .invalid]

/-- `NIBBLE_CLASS[n]` (10_state.md R26). -/
def nibbleClass (n : BitVec 4) : NibbleClass := nibbleClassRom.getD n.toNat .invalid

/-- LANE_ENC: the prefix nibble over the symbol's low 12 bits (40_tag_functions.md R100). -/
def laneEnc (s : Symbol) : CodeUnit :=
  lanePrefix (s.extractLsb' 12 3) ++ s.extractLsb' 0 12

/-- The result of CLASSIFY (40_tag_functions.md R103). -/
inductive Tag where
  /-- `DATA(s)` -/
  | data (s : Symbol)
  /-- `PAD(d)`, `d` the signed deficit candidate (40_tag_functions.md R106) -/
  | pad (d : Int)
  /-- `INVALID` -/
  | invalid
deriving DecidableEq, Repr

/-- The deficit candidate `cp - BASE_CHAR`, signed (40_tag_functions.md R106). -/
def deficitOf (cp : CodePoint) : Int := (cp.toNat : Int) - (baseChar : Int)

/-- CLASSIFY (40_tag_functions.md R103). -/
def classify (cp : CodePoint) : Tag :=
  if cp.extractLsb' 16 5 ≠ 0 then .invalid
  else
    match nibbleClass (cp.extractLsb' 12 4) with
    | .data t => .data (t ++ cp.extractLsb' 0 12)
    | .pad => .pad (deficitOf cp)
    | .invalid => .invalid

/-- MARKER_VALID (40_tag_functions.md R107). -/
def markerValid (d : Int) : Bool := 1 ≤ d && d ≤ 15

/-- MARKER: the marker of a final symbol with `c` data bits, 1..14 (40_tag_functions.md R108; outside that range log
entry 11). -/
def marker (c : Nat) : CodeUnit := BitVec.ofNat 16 (baseChar + (15 - c))

/-- PAD_TRIM (40_tag_functions.md R110). -/
def padTrim (d : Int) : Bool := 8 ≤ d

/-- The marker code point of a recorded deficit, `zext_21(BASE_CHAR + DEC_MARK_D)` (42_decoder.md R150, R152). -/
def markerCp (d : BitVec 4) : CodePoint := BitVec.ofNat 21 (baseChar + d.toNat)

/-- The four lanes, named by their code-point prefix regions; they have no numbering and no rule uses them
(40_tag_functions.md R102). -/
inductive Lane where
  /-- prefix 01 -/
  | l01
  /-- prefix 100 -/
  | l100
  /-- prefix 1011 -/
  | l1011
  /-- prefix 1100 -/
  | l1100
deriving DecidableEq, Repr

/-- The lane of a nibble, read off its leading bits (40_tag_functions.md R102). -/
def laneOf (n : BitVec 4) : Option Lane :=
  if n.extractLsb' 2 2 = 0b01#2 then some .l01
  else if n.extractLsb' 1 3 = 0b100#3 then some .l100
  else if n = 0b1011#4 then some .l1011
  else if n = 0b1100#4 then some .l1100
  else none

end Sys2Proof.Machine
end

