-- ==== Sys2Proof/Machine/DecoderCommands.lean ====
section
/-! DEFINITION. The decoder commands (42_decoder.md R150 to R155). -/

namespace Sys2Proof.Machine

/-- A valid marker of deficit `d` is accepted: the held byte is emitted or trimmed, the remainder dropped, the marker
recorded (42_decoder.md R151). -/
def acceptMarker (d : Int) (s : State) : State :=
  let s' := if padTrim d then s else emitHeld s
  setDec { s.dec with hold := 0, holdV := false, acc := 0, cnt := 0, markPos := s.dec.pos, markD := BitVec.ofInt 4 d,
                      state := .padded, pos := s.dec.pos + 1 } s'

/-- A padding-shaped code point in RUN state (42_decoder.md R150, R151). -/
def takePadding (d : Int) (cp : CodePoint) (s : State) : State :=
  if !markerValid d then raiseFormatError .misplacedOrInvalidPadding s.dec.pos cp s
  else if padTrim d && !s.dec.holdV then raiseFormatError .misplacedOrInvalidPadding s.dec.pos cp s
  else acceptMarker d s

/-- A data code point in RUN state: the held byte is released, one or two bytes are produced, the last is held
(42_decoder.md R150). -/
def takeData (sym : Symbol) (s : State) : State :=
  let a := decJoin s.dec sym
  let t := s.dec.cnt.toNat + 15
  let s' := emitHeld s
  if 16 ≤ t then
    setDec { s.dec with hold := slice a 8 8, holdV := true, acc := slice a 16 7, cnt := BitVec.ofNat 3 (t - 16),
                        pos := s.dec.pos + 1 } (emitDec (slice a 0 8) s')
  else
    setDec { s.dec with hold := slice a 0 8, holdV := true, acc := slice a 8 7, cnt := 7, pos := s.dec.pos + 1 } s'

/-- A code point in RUN state, by its class (42_decoder.md R150). -/
def takeInRun (cp : CodePoint) (s : State) : State :=
  match classify cp with
  | .invalid => raiseFormatError .invalidLane s.dec.pos cp s
  | .pad d => takePadding d cp s
  | .data sym => takeData sym s

/-- DEC_CP: ignored after an error, an error after a marker, taken in RUN state (42_decoder.md R150, R152;
60_exceptions.md R225). -/
def execDecCp (cp : CodePoint) (s : State) : Host.Outcome State Fault Refusal :=
  match s.dec.state with
  | .error => .next s
  | .padded => .next (raiseFormatError .misplacedOrInvalidPadding s.dec.markPos (markerCp s.dec.markD) s)
  | .run => .next (takeInRun cp s)

/-- DEC_END: release the held byte, report the outcome as one token, clear the engine (42_decoder.md R153). -/
def execDecEnd (s : State) : Host.Outcome State Fault Refusal :=
  match s.dec.state with
  | .error => .next (clearDecoder (emitResp (.err s.dec.errKind s.dec.errPos s.dec.errCp) s))
  | .padded => .next (clearDecoder (emitResp .ok s))
  | .run => .next (clearDecoder (emitResp .ok (emitHeld s)))

/-- DEC_CLEAR: drop the stream with no token and no further output (42_decoder.md R155). -/
def execDecClear (s : State) : Host.Outcome State Fault Refusal := .next (clearDecoder s)

end Sys2Proof.Machine
end

