-- ==== Sys2Proof/Machine/EncoderCommands.lean ====
section
/-! DEFINITION. The encoder commands (41_encoder.md R120, R121, R122). -/

namespace Sys2Proof.Machine

/-- ENC_BYTE: join the byte to the pending bits and emit a symbol once 15 bits are present (41_encoder.md R120). -/
def execEncByte (b : Byte) (s : State) : Host.Outcome State Fault Refusal :=
  let a := encJoin s.enc b
  let c := s.enc.cnt.toNat + 8
  if 15 ≤ c then
    .next (setEnc { acc := slice a 15 14, cnt := BitVec.ofNat 4 (c - 15) } (emitEnc (laneEnc (slice a 0 15)) s))
  else
    .next (setEnc { acc := slice a 0 14, cnt := BitVec.ofNat 4 c } s)

/-- ENC_END: emit the final partial symbol and its marker when bits are pending, and clear the engine (41_encoder.md R121). -/
def execEncEnd (s : State) : Host.Outcome State Fault Refusal :=
  if s.enc.cnt ≠ 0 then
    .next (clearEncoder (emitEnc (marker s.enc.cnt.toNat) (emitEnc (laneEnc (s.enc.acc.setWidth 15)) s)))
  else
    .next (clearEncoder s)

/-- ENC_CLEAR: drop the pending bits (41_encoder.md R122). -/
def execEncClear (s : State) : Host.Outcome State Fault Refusal := .next (clearEncoder s)

end Sys2Proof.Machine
end

