-- ==== Sys2Proof/Machine/Dispatch.lean ====
section
/-! DEFINITION. One arm per command (30_encoding.md R75, R76). -/

namespace Sys2Proof.Machine

/-- The rule of the command (30_encoding.md R76). -/
def exec (i : Instr) (s : State) : Host.Outcome State Fault Refusal :=
  match i with
  | .nop => Sys2Proof.Machine.execNop s
  | .encByte b => Sys2Proof.Machine.execEncByte b s
  | .encEnd => Sys2Proof.Machine.execEncEnd s
  | .encClear => Sys2Proof.Machine.execEncClear s
  | .decCp cp => Sys2Proof.Machine.execDecCp cp s
  | .decEnd => Sys2Proof.Machine.execDecEnd s
  | .decClear => Sys2Proof.Machine.execDecClear s

end Sys2Proof.Machine
end

