-- ==== Sys2Proof/Machine/Step.lean ====
section
/-! DEFINITION. One step: the host's next move is performed whole (20_memory.md R53, R57). -/

namespace Sys2Proof.Machine

/-- Perform one command word: the rule of the command it names, or IllegalCommand (30_encoding.md R76, 43_control.md R191). -/
def performWord (w : CmdWord) (s : State) : Host.Outcome State Fault Refusal :=
  match decode w with
  | .ok i => exec i s
  | .error _ => .next (raiseIllegal s)

/-- One step: take the host's next move and perform it (20_memory.md R53, R60; 70_reset_and_hazards.md R250). With no move
presented the block holds its state (60_exceptions.md R234; log entry 2). -/
def step (s : State) : Host.Outcome State Fault Refusal :=
  match s.hostMoves with
  | [] => .next s
  | .command w :: rest => performWord w (withMoves rest s)
  | .reset :: rest => .next (resetBlock (withMoves rest s))

/-- The state with an instruction placed as the next word the host presents (log entry 1). -/
def State.withFetchWord (s : State) (nbits w : Nat) : State :=
  { s with hostMoves := .command (BitVec.ofNat 32 (w % 2 ^ nbits)) :: s.hostMoves }

end Sys2Proof.Machine
end

