-- ==== Sys2Proof/Machine/Transforms.lean ====
section
/-! DEFINITION. The whole-stream transforms the commands implement: ENCODE (41_encoder.md R125) and DECODE (42_decoder.md
R156). They hold no state. -/

namespace Sys2Proof.Machine

/-- The stream as the little-endian integer `V = sum of B[i] << 8i` (20_memory.md R50). -/
def streamValue : List Byte → Nat
  | [] => 0
  | b :: bs => b.toNat + 256 * streamValue bs

/-- Symbol `k` of a stream: `V[15k+14 : 15k]`, zero above the stream's end (20_memory.md R51). -/
def symbolAt (bytes : List Byte) (k : Nat) : Symbol := slice (streamValue bytes) (15 * k) 15

/-- The number of symbols of `n` bytes, `ceil(8n/15)` (41_encoder.md R125). -/
def symbolCount (n : Nat) : Nat := (8 * n + 14) / 15

/-- ENCODE (41_encoder.md R125). -/
def encodeStream (bytes : List Byte) : List CodeUnit :=
  (List.range (symbolCount bytes.length)).map (fun k => laneEnc (symbolAt bytes k)) ++
    if 8 * bytes.length % 15 ≠ 0 then [marker (8 * bytes.length % 15)] else []

/-- The result of a failed decode: the source's `FormatError` with kind, position and code point (42_decoder.md R156). The
position is the index itself, not yet cut to 32 bits (log entry 10). -/
structure FormatError where
  kind : ErrKind
  pos  : Nat
  cp   : CodePoint
deriving DecidableEq, Repr

/-- The bytes a data symbol completes over `cnt` remainder bits: `k = (cnt + 15) div 8` of them (42_decoder.md R156). -/
def symbolBytes (a cnt : Nat) : List Byte := (List.range ((cnt + 15) / 8)).map (fun j => slice a (8 * j) 8)

/-- The loop of DECODE from index `i`, with the remainder `acc` of `cnt` bits and the bytes `out` so far (42_decoder.md
R156). -/
def decodeFrom (i acc cnt : Nat) (out : List Byte) : List CodePoint → Except FormatError (List Byte)
  | [] => .ok out
  | c :: rest =>
    match classify c with
    | .invalid => .error ⟨.invalidLane, i, c⟩
    | .pad d =>
      if rest ≠ [] ∨ markerValid d = false ∨ (padTrim d = true ∧ out = []) then
        .error ⟨.misplacedOrInvalidPadding, i, c⟩
      else .ok (if padTrim d then out.dropLast else out)
    | .data s =>
      let a := joinBits acc cnt s.toNat
      decodeFrom (i + 1) (a >>> (8 * ((cnt + 15) / 8))) ((cnt + 15) % 8) (out ++ symbolBytes a cnt) rest

/-- DECODE (42_decoder.md R156). -/
def decodeStream (cps : List CodePoint) : Except FormatError (List Byte) := decodeFrom 0 0 0 [] cps

end Sys2Proof.Machine
end

