-- ==== Sys2Proof/Machine/WireAdapter.lean ====
section
/-! DEFINITION. The boundary functions: the UTF-8 wire adapter (45_wire_adapter.md R200 to R204) and the length predictors
(R205, R206). None of them is CORE hardware; no step calls them. -/

namespace Sys2Proof.Machine

/-- `lead | v[hi:lo]`, one byte of a UTF-8 sequence (45_wire_adapter.md R200). -/
def utf8Byte (lead : Byte) (cp : CodePoint) (lo bits : Nat) : Byte :=
  lead ||| BitVec.ofNat 8 ((cp.toNat >>> lo) % 2 ^ bits)

/-- UTF8_ENC, the UTF-8 form of a code point up to 0x10FFFF (45_wire_adapter.md R200; above it log entry 11). -/
def utf8Enc (cp : CodePoint) : List Byte :=
  if cp.toNat < 0x80 then [utf8Byte 0x00 cp 0 7]
  else if cp.toNat < 0x800 then [utf8Byte 0xC0 cp 6 5, utf8Byte 0x80 cp 0 6]
  else if cp.toNat < 0x10000 then [utf8Byte 0xE0 cp 12 4, utf8Byte 0x80 cp 6 6, utf8Byte 0x80 cp 0 6]
  else [utf8Byte 0xF0 cp 18 3, utf8Byte 0x80 cp 12 6, utf8Byte 0x80 cp 6 6, utf8Byte 0x80 cp 0 6]

/-- WIRE_ENCODE (45_wire_adapter.md R201). -/
def wireEncode (bytes : List Byte) : List Byte :=
  (encodeStream bytes).flatMap (fun c => utf8Enc (c.setWidth 21))

/-- `cont(x)`: a continuation byte (45_wire_adapter.md R202). -/
def isCont (x : Byte) : Bool := x &&& 0xC0 == 0x80

/-- `{hi, x[5:0]}`: a continuation byte's 6 bits below the bits so far (45_wire_adapter.md R202). -/
def pushCont (hi : Nat) (x : Byte) : Nat := hi * 64 + x.toNat % 64

/-- The well-formed 2-byte unit at the head of the bytes, if there is one (45_wire_adapter.md R202). -/
def utf8Two (b : Byte) : List Byte → Option Nat
  | x :: _ => if 0xC2 ≤ b.toNat ∧ b.toNat ≤ 0xDF ∧ isCont x = true then some (pushCont (b.toNat % 32) x) else none
  | _ => none

/-- The well-formed 3-byte unit at the head of the bytes, if there is one (45_wire_adapter.md R202). -/
def utf8Three (b : Byte) : List Byte → Option Nat
  | x :: y :: _ =>
    let c := pushCont (pushCont (b.toNat % 16) x) y
    if 0xE0 ≤ b.toNat ∧ b.toNat ≤ 0xEF ∧ isCont x = true ∧ isCont y = true ∧ 0x800 ≤ c ∧
        ¬ (0xD800 ≤ c ∧ c ≤ 0xDFFF) then some c else none
  | _ => none

/-- The well-formed 4-byte unit at the head of the bytes, if there is one (45_wire_adapter.md R202). -/
def utf8Four (b : Byte) : List Byte → Option Nat
  | x :: y :: z :: _ =>
    let c := pushCont (pushCont (pushCont (b.toNat % 8) x) y) z
    if 0xF0 ≤ b.toNat ∧ b.toNat ≤ 0xF4 ∧ isCont x = true ∧ isCont y = true ∧ isCont z = true ∧ 0x10000 ≤ c ∧
        c ≤ 0x10FFFF then some c else none
  | _ => none

/-- The unit at the head of the bytes: its code point and how many bytes follow its first; an ill-formed unit is U+FFFD and
one byte (45_wire_adapter.md R202). -/
def utf8Unit (b : Byte) (rest : List Byte) : CodePoint × Nat :=
  if b.toNat < 0x80 then (b.setWidth 21, 0)
  else
    match utf8Two b rest, utf8Three b rest, utf8Four b rest with
    | some c, _, _ => (BitVec.ofNat 21 c, 1)
    | none, some c, _ => (BitVec.ofNat 21 c, 2)
    | none, none, some c => (BitVec.ofNat 21 c, 3)
    | none, none, none => (0xFFFD, 0)

/-- UTF8_PARSE with `skip` bytes of the current unit still to pass over (45_wire_adapter.md R202). -/
def utf8ParseSkip : Nat → List Byte → List CodePoint
  | _, [] => []
  | skip + 1, _ :: rest => utf8ParseSkip skip rest
  | 0, b :: rest => (utf8Unit b rest).1 :: utf8ParseSkip (utf8Unit b rest).2 rest

/-- UTF8_PARSE (45_wire_adapter.md R202). -/
def utf8Parse (bytes : List Byte) : List CodePoint := utf8ParseSkip 0 bytes

/-- WIRE_DECODE (45_wire_adapter.md R203). -/
def wireDecode (bytes : List Byte) : Except FormatError (List Byte) := decodeStream (utf8Parse bytes)

/-- encodedLength, in code points (45_wire_adapter.md R205). -/
def encodedLength (n : Nat) : Nat := (8 * n + 14) / 15 + if 8 * n % 15 ≠ 0 then 1 else 0

/-- The deficit of a code point that is a valid marker (40_tag_functions.md R107). -/
def markerDeficit (cp : CodePoint) : Option Int :=
  match classify cp with
  | .pad d => if markerValid d then some d else none
  | _ => none

/-- decodedLength of `n` code points of which the last is `last`; with `n = 0`, `last` is not read. It is an integer, as the
rule's own difference is -1 for a lone marker of deficit 8 or more, which DECODE rejects (45_wire_adapter.md R206). -/
def decodedLength (n : Nat) (last : CodePoint) : Int :=
  match n, markerDeficit last with
  | 0, _ => 0
  | n + 1, some d => ((15 * n / 8 : Nat) : Int) - if 8 ≤ d then 1 else 0
  | n + 1, none => ((15 * (n + 1) / 8 : Nat) : Int)

end Sys2Proof.Machine
end

