-- ==== Sys2Proof/WellFormed.lean ====
section
/-! DEFINITION. What makes the fields of a command word legal (30_encoding.md R70 to R73, R77) and what makes an assembler
line legal (R80: an operand out of range is an assembly error). A value of `Instr` needs no check: its operand types are
the field widths. -/

namespace Sys2Proof

/-- The format of each opcode that names a command; none for the reserved 0x7..0xF (30_encoding.md R75). -/
def formatOf (op : BitVec 4) : Option Format :=
  match op.toNat with
  | 0 => some .n
  | 1 => some .b
  | 2 => some .n
  | 3 => some .n
  | 4 => some .c
  | 5 => some .n
  | 6 => some .n
  | _ => none

/-- The operand bits a format leaves unused are 0 (30_encoding.md R71 to R73). -/
def Format.operandOk (f : Format) (opnd : BitVec 21) : Bool :=
  match f with
  | .n => opnd == 0
  | .b => opnd.toNat < 256
  | .c => true

/-- The fields are those of a command: RSV is 0, the opcode is not reserved, the operand fits (30_encoding.md R77). -/
def CmdFields.wellFormed (f : CmdFields) : Bool :=
  f.rsv == 0 &&
    match formatOf f.op with
    | some fmt => fmt.operandOk f.opnd
    | none => false

/-- The range of a byte operand, 0..255 (30_encoding.md R80). -/
def byteInRange (b : Nat) : Bool := b < 256

/-- The range of a code point operand, 0..0x1FFFFF (30_encoding.md R80). -/
def cpInRange (cp : Nat) : Bool := cp < 0x200000

/-- The operands of an assembler line are in range, and a pseudo-instruction that R81 gives at least one operand has one
(30_encoding.md R80, R81). -/
def AsmLine.wellFormed : AsmLine → Bool
  | .nop | .encEnd | .encClear | .decEnd | .decClear => true
  | .encByte b => byteInRange b
  | .decCp cp => cpInRange cp
  | .rawWord w => w < 0x100000000
  | .encBytes bs => !bs.isEmpty && bs.all byteInRange
  | .encStream bs => bs.all byteInRange
  | .decCps cps => !cps.isEmpty && cps.all cpInRange
  | .decStream cps => cps.all cpInRange
  | .decUtf8 xs => !xs.isEmpty && xs.all byteInRange

end Sys2Proof
end

