-- ==== Sys2Proof/Machine/Assembler.lean ====
section
/-! DEFINITION. The assembler: the words of a line (30_encoding.md R80, R81) and the reading of a line's text (R80; the
grammar's details are log entry 13). -/

namespace Sys2Proof.Machine

/-- The word of `enc.byte b` (30_encoding.md R80). -/
def encByteWord (b : Nat) : CmdWord := encode (.encByte (BitVec.ofNat 8 b))

/-- The word of `dec.cp cp` (30_encoding.md R80). -/
def decCpWord (cp : Nat) : CmdWord := encode (.decCp (BitVec.ofNat 21 cp))

/-- The words a line stands for, its operands taken to be in range (30_encoding.md R80, R81). -/
def expandLine : AsmLine → List CmdWord
  | .nop => [encode .nop]
  | .encByte b => [encByteWord b]
  | .encEnd => [encode .encEnd]
  | .encClear => [encode .encClear]
  | .decCp cp => [decCpWord cp]
  | .decEnd => [encode .decEnd]
  | .decClear => [encode .decClear]
  | .rawWord w => [BitVec.ofNat 32 w]
  | .encBytes bs => bs.map encByteWord
  | .encStream bs => bs.map encByteWord ++ [encode .encEnd]
  | .decCps cps => cps.map decCpWord
  | .decStream cps => cps.map decCpWord ++ [encode .decEnd]
  | .decUtf8 xs => (utf8Parse (xs.map (BitVec.ofNat 8))).map (fun cp => encode (.decCp cp))

/-- Assemble one line; an operand out of range is an assembly error (30_encoding.md R80). -/
def assembleLine (l : AsmLine) : Option (List CmdWord) := if l.wellFormed then some (expandLine l) else none

/-- White space between tokens (log entry 13). -/
def isBlank (c : Char) : Bool := c == ' ' || c == '\t' || c == '\r'

/-- A text without the white space around it. -/
def trimBlanks (t : List Char) : List Char := ((t.dropWhile isBlank).reverse.dropWhile isBlank).reverse

/-- The value of a digit in a base up to 16. -/
def digitValue (base : Nat) (c : Char) : Option Nat :=
  let n := c.toNat
  let v := if 48 ≤ n ∧ n ≤ 57 then n - 48 else if 65 ≤ n ∧ n ≤ 70 then n - 55 else if 97 ≤ n ∧ n ≤ 102 then n - 87 else 16
  if v < base then some v else none

/-- The value of a string of digits continued from `acc`. -/
def digitsFrom (base acc : Nat) : List Char → Option Nat
  | [] => some acc
  | c :: cs =>
    match digitValue base c with
    | some v => digitsFrom base (acc * base + v) cs
    | none => none

/-- The value of a non-empty string of digits. -/
def digits (base : Nat) (t : List Char) : Option Nat := if t.isEmpty then none else digitsFrom base 0 t

/-- A number: `0x` and hexadecimal digits, or decimal digits (30_encoding.md R80; log entry 13). -/
def readNumber : List Char → Option Nat
  | '0' :: 'x' :: t => digits 16 t
  | t => digits 10 t

/-- A code point operand: `U+` and hexadecimal digits, or a number (30_encoding.md R80). -/
def readCp : List Char → Option Nat
  | 'U' :: '+' :: t => digits 16 t
  | t => readNumber t

/-- The texts between commas (30_encoding.md R81); `cur` is the reversed text so far. -/
def splitCommas (cur : List Char) : List Char → List (List Char)
  | [] => [cur.reverse]
  | c :: cs => if c = ',' then cur.reverse :: splitCommas [] cs else splitCommas (c :: cur) cs

/-- Each text read as one operand. -/
def readEach (read : List Char → Option Nat) : List (List Char) → Option (List Nat)
  | [] => some []
  | t :: ts =>
    match read (trimBlanks t), readEach read ts with
    | some n, some ns => some (n :: ns)
    | _, _ => none

/-- The operands of a line, separated by commas; no text is no operand (30_encoding.md R81). -/
def readOperands (read : List Char → Option Nat) (t : List Char) : Option (List Nat) :=
  if t.isEmpty then some [] else readEach read (splitCommas [] t)

/-- The line of a mnemonic and its byte, code point and word operands as read from its text (30_encoding.md R80, R81). -/
def lineOf (mnemonic : String) (bytes cps : Option (List Nat)) : Option AsmLine :=
  match mnemonic, bytes, cps with
  | "nop", some [], _ => some .nop
  | "enc.byte", some [b], _ => some (.encByte b)
  | "enc.end", some [], _ => some .encEnd
  | "enc.clear", some [], _ => some .encClear
  | "dec.cp", _, some [cp] => some (.decCp cp)
  | "dec.end", some [], _ => some .decEnd
  | "dec.clear", some [], _ => some .decClear
  | ".word", some [w], _ => some (.rawWord w)
  | "enc.bytes", some bs, _ => some (.encBytes bs)
  | "enc.stream", some bs, _ => some (.encStream bs)
  | "dec.cps", _, some cps => some (.decCps cps)
  | "dec.stream", _, some cps => some (.decStream cps)
  | "dec.utf8", some xs, _ => some (.decUtf8 xs)
  | _, _, _ => none

/-- The text of a line without its comment and the white space around it (30_encoding.md R80). -/
def lineText (t : List Char) : List Char := trimBlanks (t.takeWhile (fun c => c != ';'))

/-- Assemble the text of one line; a line with no command assembles to no word (30_encoding.md R80; log entry 13). -/
def assembleText (line : String) : Option (List CmdWord) :=
  let t := lineText line.toList
  let operands := trimBlanks (t.dropWhile (fun c => !isBlank c))
  if t.isEmpty then some []
  else
    match lineOf (String.ofList (t.takeWhile (fun c => !isBlank c))) (readOperands readNumber operands)
        (readOperands readCp operands) with
    | some l => assembleLine l
    | none => none

end Sys2Proof.Machine
end

