-- ==== Sys2Proof/Machine/Flags.lean ====
section
/-! DEFINITION. The flags and codes of the block (10_state.md R33, R36 to R39): the numeric codes, and the STATUS word. No
arithmetic flag exists (R39). -/

namespace Sys2Proof.Machine

/-- The code of DEC_STATE (10_state.md R33). -/
def decStateCode : DecState → BitVec 2
  | .run => 0
  | .padded => 1
  | .error => 2

/-- The code of ERR_KIND, and of a token's kind (10_state.md R36, 60_exceptions.md R221). -/
def errKindCode : ErrKind → BitVec 2
  | .none => 0
  | .invalidLane => 1
  | .misplacedOrInvalidPadding => 2

/-- One flag as one bit. -/
def flagBit (b : Bool) : BitVec 1 := BitVec.ofBool b

/-- STATUS, word 0 of the status read port (10_state.md R38). -/
def statusWord (s : State) : BitVec 32 :=
  (0 : BitVec 19) ++ flagBit s.illegal ++ errKindCode s.dec.errKind ++ decStateCode s.dec.state ++
    flagBit s.dec.holdV ++ s.dec.cnt ++ s.enc.cnt

end Sys2Proof.Machine
end

