-- ==== Sys2Proof/Machine/StatusPort.lean ====
section
/-! DEFINITION. What the host reads: the status read port (10_state.md R38), the drained streams (10_state.md R41,
20_memory.md R54) and the packed completion token (30_encoding.md R85). Reads change nothing (20_memory.md R58), so they
are functions of the state (log entry 4). -/

namespace Sys2Proof.Machine

/-- A read of the status read port at an index 0..7 (10_state.md R38). -/
def readStatus (s : State) (index : BitVec 3) : BitVec 32 :=
  match index.toNat with
  | 0 => statusWord s
  | 1 => (0 : BitVec 18) ++ s.enc.acc
  | 2 => (0 : BitVec 16) ++ s.dec.hold ++ (0 : BitVec 1) ++ s.dec.acc
  | 3 => s.dec.pos
  | 4 => (0 : BitVec 28) ++ s.dec.markD
  | 5 => s.dec.markPos
  | 6 => s.dec.errPos
  | _ => (0 : BitVec 11) ++ s.dec.errCp

/-- A completion token carried as a 64-bit word: [1:0] the code, [28:8] cp, [63:32] pos (30_encoding.md R85). -/
def packToken : Token → BitVec 64
  | .ok => 0
  | .err kind pos cp => pos ++ (0 : BitVec 3) ++ cp ++ (0 : BitVec 6) ++ errKindCode kind

/-- What a host that has already taken `n` elements of ENC_OUT can still drain (10_state.md R41). -/
def drainEncOut (n : Nat) (s : State) : List CodeUnit := s.encOut.drop n

/-- What a host that has already taken `n` elements of DEC_OUT can still drain (10_state.md R41). -/
def drainDecOut (n : Nat) (s : State) : List Byte := s.decOut.drop n

/-- What a host that has already taken `n` elements of DEC_RESP can still drain (10_state.md R41). -/
def drainDecResp (n : Nat) (s : State) : List Token := s.decResp.drop n

end Sys2Proof.Machine
end

