-- ==== Sys2Proof/Safety.lean ====
section
/-! DEFINITION. What claims about runs are said in: running commands and words in order (10_state.md R23,
70_reset_and_hazards.md R265), the invariants of reachable states (10_state.md R44), and what the streams may hold
(10_state.md R42). -/

namespace Sys2Proof.Machine

/-- A step's outcome followed by another step; a stop stays a stop. -/
def andThen (o : Host.Outcome State Fault Refusal) (f : State → Host.Outcome State Fault Refusal) :
    Host.Outcome State Fault Refusal :=
  match o with
  | .next s => f s
  | .fault r => .fault r
  | .refused r => .refused r

/-- The commands performed in order (10_state.md R23). -/
def runCommands : List Instr → State → Host.Outcome State Fault Refusal
  | [], s => .next s
  | i :: is, s => andThen (exec i s) (runCommands is)

/-- The words performed in order: the state after a finite sequence of words (10_state.md R23, 70_reset_and_hazards.md
R265). -/
def runWords : List CmdWord → State → Host.Outcome State Fault Refusal
  | [], s => .next s
  | w :: ws, s => andThen (performWord w s) (runWords ws)

/-- A command of the encoder engine (10_state.md R20). -/
def isEncoderCommand : Instr → Bool
  | .encByte _ | .encEnd | .encClear => true
  | .nop | .decCp _ | .decEnd | .decClear => false

/-- A command of the decoder engine (10_state.md R20). -/
def isDecoderCommand : Instr → Bool
  | .decCp _ | .decEnd | .decClear => true
  | .nop | .encByte _ | .encEnd | .encClear => false

/-- A word that names an encoder command. -/
def isEncoderWord (w : CmdWord) : Bool :=
  match decode w with
  | .ok i => isEncoderCommand i
  | .error _ => false

/-- A word that names a decoder command. -/
def isDecoderWord (w : CmdWord) : Bool :=
  match decode w with
  | .ok i => isDecoderCommand i
  | .error _ => false

/-- The command does the second time what it did the first: the same registers after it, the same elements emitted by it.
This is 20_memory.md R58's "idempotent" (log entry 16). -/
def Idempotent (i : Instr) : Prop :=
  ∀ s t u : State, exec i s = .next t → exec i t = .next u →
    u.enc = t.enc ∧ u.dec = t.dec ∧ u.illegal = t.illegal ∧
    (∃ e, t.encOut = s.encOut ++ e ∧ u.encOut = t.encOut ++ e) ∧
    (∃ o, t.decOut = s.decOut ++ o ∧ u.decOut = t.decOut ++ o) ∧
    (∃ r, t.decResp = s.decResp ++ r ∧ u.decResp = t.decResp ++ r)

/-- The words of a whole encoder stream: every byte, then ENC_END (30_encoding.md R81 `enc.stream`). -/
def encoderStreamWords (bytes : List Byte) : List CmdWord :=
  bytes.map (fun b => encode (.encByte b)) ++ [encode .encEnd]

/-- The words of a whole decoder stream: every code point, then DEC_END (30_encoding.md R81 `dec.stream`). -/
def decoderStreamWords (cps : List CodePoint) : List CmdWord :=
  cps.map (fun c => encode (.decCp c)) ++ [encode .decEnd]

/-- The encoder engine's pending bits lie below ENC_CNT, which is at most 14 (10_state.md R44, item 1). -/
structure EncEngine.Legal (e : EncEngine) : Prop where
  cnt_le : e.cnt.toNat ≤ 14
  acc_lt : e.acc.toNat < 2 ^ e.cnt.toNat

/-- The decoder engine's registers as 10_state.md R44, items 2 to 7, and R36 have them. -/
structure DecEngine.Legal (d : DecEngine) : Prop where
  /-- item 2; DEC_CNT ≤ 7 is its width -/
  acc_lt : d.acc.toNat < 2 ^ d.cnt.toNat
  /-- item 3 -/
  hold_empty : d.holdV = false → d.hold = 0
  /-- item 4 -/
  state_code : decStateCode d.state ≠ 3
  /-- item 4 -/
  kind_code : errKindCode d.errKind ≠ 3
  /-- item 5 -/
  run_mark : d.state = .run → d.markPos = 0 ∧ d.markD = 0
  /-- item 6 -/
  padded : d.state = .padded → d.holdV = false ∧ d.cnt = 0 ∧ d.acc = 0 ∧ 1 ≤ d.markD.toNat
  /-- R36: the error record is 0 unless DEC_STATE = ERROR (so items 5 and 6) -/
  no_error : d.state ≠ .error → d.errKind = .none ∧ d.errPos = 0 ∧ d.errCp = 0
  /-- item 7 -/
  error_kind : d.state = .error → d.errKind ≠ .none

/-- The invariant of every reachable state (10_state.md R44, items 1 to 7). -/
structure State.Legal (s : State) : Prop where
  enc : s.enc.Legal
  dec : s.dec.Legal

/-- A data code point: its prefix nibble is one of LANE_PREFIX's (00_scope.md R11, 30_encoding.md R82). -/
def isDataUnit (c : CodeUnit) : Bool :=
  (0x4000 ≤ c.toNat && c.toNat ≤ 0x9FFF) || (0xB000 ≤ c.toNat && c.toNat ≤ 0xCFFF)

/-- A marker the encoder emits, 0x63..0x70 (30_encoding.md R83). -/
def isEncoderMarker (c : CodeUnit) : Bool := 0x63 ≤ c.toNat && c.toNat ≤ 0x70

/-- A token of the two forms DEC_RESP holds: an error token names one of the two kinds (10_state.md R42). -/
def Token.wellFormed : Token → Bool
  | .ok => true
  | .err kind _ _ => kind != .none

/-- ENC_OUT and DEC_RESP hold only what 10_state.md R42 lets them hold. -/
structure State.StreamsLegal (s : State) : Prop where
  encOut : ∀ c ∈ s.encOut, isDataUnit c = true ∨ isEncoderMarker c = true
  decResp : ∀ t ∈ s.decResp, t.wellFormed = true

end Sys2Proof.Machine
end

