-- ==== Sys2Proof/Certificates/Slice0/Obligations.lean ====
section
/-! DEFINITION. The statements for the provers. -/

open Sys2Proof Sys2Proof.Machine

/-! ## Encoding -/

/-- Tier 3. Decoder and encoder agree both ways: a word decodes to a command exactly when it is that command's word, so
each command has one word, each word at most one command, and every operand bit is kept. -/
def Obligations.DecodeEncodeAgree : Prop :=
  ∀ (w : CmdWord) (i : Instr), decode w = .ok i ↔ w = encode i

/-- 30_encoding.md R76: `decode_cmd`, its fields read off the word's number (ILLEGAL is `none`), and the block performs the
rule of the command it names, or that of an illegal word. -/
def Obligations.DecodeIsDecodeCmd : Prop :=
  ∀ w : CmdWord,
    let op := w.toNat / 2 ^ 28
    let rsv := w.toNat / 2 ^ 21 % 2 ^ 7
    let opnd := w.toNat % 2 ^ 21
    ((decode w).toOption =
      if rsv ≠ 0 then none
      else if op = 0 ∧ opnd = 0 then some .nop
      else if op = 1 ∧ opnd / 2 ^ 8 = 0 then some (.encByte (BitVec.ofNat 8 opnd))
      else if op = 2 ∧ opnd = 0 then some .encEnd
      else if op = 3 ∧ opnd = 0 then some .encClear
      else if op = 4 then some (.decCp (BitVec.ofNat 21 opnd))
      else if op = 5 ∧ opnd = 0 then some .decEnd
      else if op = 6 ∧ opnd = 0 then some .decClear
      else none) ∧
    (∀ (i : Instr) (s : State), decode w = .ok i → performWord w s = exec i s) ∧
    (∀ (e : DecodeError) (s : State), decode w = .error e → performWord w s = .next { s with illegal := true })

/-- 30_encoding.md R74, R75: match and mask select each command, and the operands are `w[7:0]` and `w[20:0]`, and the
reserved opcodes select none. Since `decode` is a function, no two rows match one word. -/
def Obligations.OpcodeMapSelectsCommands : Prop :=
  ∀ w : CmdWord,
    (decode w = .ok .nop ↔ w &&& 0xFFFFFFFF#32 = 0x00000000#32) ∧
    (∀ b, decode w = .ok (.encByte b) ↔ w &&& 0xFFFFFF00#32 = 0x10000000#32 ∧ b = w.extractLsb' 0 8) ∧
    (decode w = .ok .encEnd ↔ w &&& 0xFFFFFFFF#32 = 0x20000000#32) ∧
    (decode w = .ok .encClear ↔ w &&& 0xFFFFFFFF#32 = 0x30000000#32) ∧
    (∀ cp, decode w = .ok (.decCp cp) ↔ w &&& 0xFFE00000#32 = 0x40000000#32 ∧ cp = w.extractLsb' 0 21) ∧
    (decode w = .ok .decEnd ↔ w &&& 0xFFFFFFFF#32 = 0x50000000#32) ∧
    (decode w = .ok .decClear ↔ w &&& 0xFFFFFFFF#32 = 0x60000000#32) ∧
    (7 ≤ (w.extractLsb' 28 4).toNat → ∃ e, decode w = .error e)

/-- 30_encoding.md R77: which words are illegal, how many there are, that one raises IllegalCommand, and that every command
after it is performed as it would be without it. -/
def Obligations.IllegalWordsOfTheCommandSet : Prop :=
  (∀ w : CmdWord, (∃ e, decode w = .error e) ↔
    w.extractLsb' 21 7 ≠ 0#7 ∨ 7 ≤ (w.extractLsb' 28 4).toNat ∨
    ((w.extractLsb' 28 4).toNat ∈ [0, 2, 3, 5, 6] ∧ w.extractLsb' 0 21 ≠ 0#21) ∨
    ((w.extractLsb' 28 4).toNat = 1 ∧ w.extractLsb' 8 13 ≠ 0#13)) ∧
  Nat.card { w : CmdWord // ∃ e, decode w = .error e } = 2 ^ 32 - (1 + 256 + 1 + 1 + 2 ^ 21 + 1 + 1) ∧
  (∀ (w : CmdWord) (s : State), (∃ e, decode w = .error e) → performWord w s = .next { s with illegal := true }) ∧
  (∀ (i : Instr) (s t : State), exec i s = .next t →
    exec i { s with illegal := true } = .next { t with illegal := true })

/-- Words written out from 30_encoding.md R75 and 95_test_vectors.md V22 decode to the commands they stand for. -/
def Obligations.WrittenOutWordsDecode : Prop :=
  decode 0b0000_0000000_000000000000000000000#32 = .ok .nop ∧
  decode 0b0001_0000000_000000000000011111111#32 = .ok (.encByte 0xFF) ∧
  decode 0b0010_0000000_000000000000000000000#32 = .ok .encEnd ∧
  decode 0b0011_0000000_000000000000000000000#32 = .ok .encClear ∧
  decode 0b0100_0000000_000001000000000000000#32 = .ok (.decCp 0x8000) ∧
  decode 0b0100_0000000_111111111111111111111#32 = .ok (.decCp 0x1FFFFF) ∧
  decode 0b0101_0000000_000000000000000000000#32 = .ok .decEnd ∧
  decode 0b0110_0000000_000000000000000000000#32 = .ok .decClear

/-- The assembler's lines and operand ranges (30_encoding.md, section 4): the word where the operand is in range, an
assembly error where it is not. -/
def Obligations.AssemblerLinesGiveWords : Prop :=
  assembleLine .nop = some [0x00000000#32] ∧
  (∀ b, assembleLine (.encByte b) = if b ≤ 255 then some [0x10000000#32 ||| BitVec.ofNat 32 b] else none) ∧
  assembleLine .encEnd = some [0x20000000#32] ∧
  assembleLine .encClear = some [0x30000000#32] ∧
  (∀ cp, assembleLine (.decCp cp) = if cp ≤ 0x1FFFFF then some [0x40000000#32 ||| BitVec.ofNat 32 cp] else none) ∧
  assembleLine .decEnd = some [0x50000000#32] ∧
  assembleLine .decClear = some [0x60000000#32] ∧
  (∀ w, assembleLine (.rawWord w) = if w < 2 ^ 32 then some [BitVec.ofNat 32 w] else none)

/-! ## Steps and reset -/

/-- A step performs the command the next presented word decodes to, at the state without that word. The list of presented
words is the model's own (log entry 1). -/
def Obligations.StepRunsTheDecodedCommand : Prop :=
  ∀ (s : State) (w : CmdWord) (rest : List HostMove) (i : Instr),
    s.hostMoves = .command w :: rest → decode w = .ok i → step s = exec i { s with hostMoves := rest }

/-- A step on an illegal word sets ILLEGAL, takes the word off the model's list (log entry 1), and changes nothing else. -/
def Obligations.StepOnIllegalWordSetsIllegal : Prop :=
  ∀ (s : State) (w : CmdWord) (rest : List HostMove) (e : DecodeError),
    s.hostMoves = .command w :: rest → decode w = .error e →
      step s = .next { s with hostMoves := rest, illegal := true }

/-- A step on the host's reset leaves the reset state; with no move presented the block holds its state. The list of moves
is the model's own (log entries 1, 2 and 3). -/
def Obligations.StepOnResetAndIdle : Prop :=
  (∀ (s : State) (rest : List HostMove), s.hostMoves = .reset :: rest →
    step s = .next { State.reset with hostMoves := rest }) ∧
  (∀ s : State, s.hostMoves = [] → step s = .next s)

/-- An instruction placed with `withFetchWord` is what the next step performs (the model's interface, log entry 1). -/
def Obligations.PlacedWordIsPerformedNext : Prop :=
  ∀ (i : Instr) (s : State), step (s.withFetchWord 32 (encode i).toNat) = exec i s

/-- 10_state.md R43, 70_reset_and_hazards.md R250: what the reset signal leaves, from any state; the machine starts there. -/
def Obligations.ResetLeavesResetValues : Prop :=
  ∀ s : State, ∀ t ∈ [State.reset, resetBlock s],
    t.enc.acc = 0 ∧ t.enc.cnt = 0 ∧ t.dec.acc = 0 ∧ t.dec.cnt = 0 ∧ t.dec.hold = 0 ∧ t.dec.holdV = false ∧
    t.dec.state = .run ∧ t.dec.pos = 0 ∧ t.dec.markPos = 0 ∧ t.dec.markD = 0 ∧
    t.dec.errKind = .none ∧ t.dec.errPos = 0 ∧ t.dec.errCp = 0 ∧ t.illegal = false ∧
    t.encOut = [] ∧ t.decOut = [] ∧ t.decResp = []

/-- 70_reset_and_hazards.md, section 4: every command, every word, every step and every finite run of words has a next
state; none is stuck. -/
def Obligations.NothingIsStuck : Prop :=
  (∀ (i : Instr) (s : State), ∃ t, exec i s = .next t) ∧
  (∀ (w : CmdWord) (s : State), ∃ t, performWord w s = .next t) ∧
  (∀ s : State, ∃ t, step s = .next t) ∧
  (∀ (ws : List CmdWord) (s : State), ∃ t, runWords ws s = .next t)

/-- Stepping the machine through the words on the host's list is performing the words in order (10_state.md, section 1; the
list is the model's own, log entry 1). -/
def Obligations.SteppingThePresentedWordsRunsThem : Prop :=
  ∀ (ws : List CmdWord) (s : State), s.hostMoves = ws.map .command →
    Host.Core.run Sys2Proof.core ws.length s = runWords ws { s with hostMoves := [] }

/-! ## Control and encoder commands -/

/-- 43_control.md R190: NOP changes nothing. -/
def Obligations.NopDoesNothing : Prop :=
  decode 0x00000000#32 = .ok .nop ∧ ∀ s : State, exec .nop s = .next s

/-- 43_control.md R191: every word outside the seven rows sets ILLEGAL and changes nothing else, and no word clears it. -/
def Obligations.WordOutsideTheRowsSetsIllegalOnly : Prop :=
  (∀ (w : CmdWord) (s : State), (∀ i, w ≠ encode i) → performWord w s = .next { s with illegal := true }) ∧
  (∀ (w : CmdWord) (s t : State), s.illegal = true → performWord w s = .next t → t.illegal = true) ∧
  (∀ s : State, (resetBlock s).illegal = false)

/-- 41_encoder.md R120: ENC_BYTE, for every byte and every state. -/
def Obligations.EncByteResult : Prop :=
  ∀ (b : Byte) (s : State),
    decode (0x10000000#32 ||| b.setWidth 32) = .ok (.encByte b) ∧
    let a := s.enc.acc.toNat ||| (b.toNat <<< s.enc.cnt.toNat)
    let c := s.enc.cnt.toNat + 8
    exec (.encByte b) s = .next
      (if 15 ≤ c then
        { s with encOut := s.encOut ++ [laneEnc (BitVec.ofNat 15 a)]
                 enc := { acc := BitVec.ofNat 14 (a >>> 15), cnt := BitVec.ofNat 4 (c - 15) } }
      else { s with enc := { acc := BitVec.ofNat 14 a, cnt := BitVec.ofNat 4 c } })

/-- ENC_BYTE as arithmetic on the pending bits, where the engine is as 10_state.md R44 (item 1) has it: the pending
bits with the byte above them are the number `v = ENC_ACC + b * 2^ENC_CNT`; its low 15 bits leave as a symbol once
there are 15, and every other bit stays pending. The spec marks this as its own inference: 10_state.md, section 9:
"[derived: from rule R43 and the command rules R120 to R192]". -/
def Obligations.EncBytePendingBitsArithmetic : Prop :=
  ∀ (b : Byte) (s : State), s.enc.Legal →
    let v := s.enc.acc.toNat + b.toNat * 2 ^ s.enc.cnt.toNat
    ∃ t, exec (.encByte b) s = .next t ∧ t.dec = s.dec ∧
      (7 ≤ s.enc.cnt.toNat → t.enc.acc.toNat = v / 2 ^ 15 ∧ t.enc.cnt.toNat + 7 = s.enc.cnt.toNat ∧
        ∃ sym : Symbol, sym.toNat = v % 2 ^ 15 ∧ t.encOut = s.encOut ++ [laneEnc sym]) ∧
      (s.enc.cnt.toNat < 7 → t.enc.acc.toNat = v ∧ t.enc.cnt.toNat = s.enc.cnt.toNat + 8 ∧ t.encOut = s.encOut)

/-- 41_encoder.md R121: ENC_END, for every state. -/
def Obligations.EncEndResult : Prop :=
  decode 0x20000000#32 = .ok .encEnd ∧
  ∀ s : State, exec .encEnd s = .next
    { s with encOut := s.encOut ++ (if s.enc.cnt.toNat ≠ 0 then
                [laneEnc (s.enc.acc.setWidth 15), BitVec.ofNat 16 (0x62 + (15 - s.enc.cnt.toNat))] else [])
             enc := { acc := 0, cnt := 0 } }

/-- 41_encoder.md R122: ENC_CLEAR, for every state. -/
def Obligations.EncClearResult : Prop :=
  decode 0x30000000#32 = .ok .encClear ∧
  ∀ s : State, exec .encClear s = .next { s with enc := { acc := 0, cnt := 0 } }

/-! ## Decoder commands -/

/-- 42_decoder.md R150: DEC_CP, for every code point and every state. -/
def Obligations.DecCpResult : Prop :=
  ∀ (cp : CodePoint) (s : State),
    decode (0x40000000#32 ||| cp.setWidth 32) = .ok (.decCp cp) ∧
    let d := s.dec
    let held := if d.holdV = true then [d.hold] else []
    let raised := fun (k : ErrKind) (p : Pos) (c : CodePoint) =>
      ({ s with dec := { d with state := .error, errKind := k, errPos := p, errCp := c } } : State)
    exec (.decCp cp) s = .next
      (match d.state with
      | .error => s
      | .padded => raised .misplacedOrInvalidPadding d.markPos (BitVec.ofNat 21 (0x62 + d.markD.toNat))
      | .run =>
        match classify cp with
        | .invalid => raised .invalidLane d.pos cp
        | .pad k =>
          if ¬ (1 ≤ k ∧ k ≤ 15) then raised .misplacedOrInvalidPadding d.pos cp
          else if 8 ≤ k ∧ d.holdV = false then raised .misplacedOrInvalidPadding d.pos cp
          else
            { s with decOut := s.decOut ++ (if 8 ≤ k then [] else held)
                     dec := { d with hold := 0, holdV := false, acc := 0, cnt := 0, markPos := d.pos,
                                     markD := BitVec.ofNat 4 k.toNat, state := .padded, pos := d.pos + 1 } }
        | .data sym =>
          let a := d.acc.toNat ||| (sym.toNat <<< d.cnt.toNat)
          if 16 ≤ d.cnt.toNat + 15 then
            { s with decOut := s.decOut ++ held ++ [BitVec.ofNat 8 a]
                     dec := { d with hold := BitVec.ofNat 8 (a >>> 8), acc := BitVec.ofNat 7 (a >>> 16),
                                     cnt := BitVec.ofNat 3 (d.cnt.toNat + 15 - 16), holdV := true, pos := d.pos + 1 } }
          else
            { s with decOut := s.decOut ++ held
                     dec := { d with hold := BitVec.ofNat 8 a, acc := BitVec.ofNat 7 (a >>> 8), cnt := 7,
                                     holdV := true, pos := d.pos + 1 } })

/-- DEC_CP of a data code point as arithmetic on the remainder, where the engine is as 10_state.md R44 has it: the
remainder with the payload above it is the number `v = DEC_ACC + s * 2^DEC_CNT`; the held byte and all whole bytes of
`v` but the last leave in order, the last is held, and the rest stays. The spec marks this as its own inference:
10_state.md, section 9: "[derived: from rule R43 and the command rules R120 to R192]". -/
def Obligations.DecCpDataArithmetic : Prop :=
  ∀ (cp : CodePoint) (sym : Symbol) (s : State), s.dec.Legal → s.dec.state = .run → classify cp = .data sym →
    let v := s.dec.acc.toNat + sym.toNat * 2 ^ s.dec.cnt.toNat
    let held := if s.dec.holdV = true then [s.dec.hold] else []
    ∃ t, exec (.decCp cp) s = .next t ∧ t.enc = s.enc ∧ t.encOut = s.encOut ∧ t.decResp = s.decResp ∧
      t.dec.holdV = true ∧ t.dec.pos = s.dec.pos + 1 ∧ t.dec.state = .run ∧
      (s.dec.cnt = 0 → t.decOut = s.decOut ++ held ∧ t.dec.hold.toNat = v % 2 ^ 8 ∧ t.dec.acc.toNat = v / 2 ^ 8 ∧
        t.dec.cnt = 7) ∧
      (s.dec.cnt ≠ 0 → (∃ b : Byte, b.toNat = v % 2 ^ 8 ∧ t.decOut = s.decOut ++ held ++ [b]) ∧
        t.dec.hold.toNat = v / 2 ^ 8 % 2 ^ 8 ∧ t.dec.acc.toNat = v / 2 ^ 16 ∧
        t.dec.cnt.toNat + 1 = s.dec.cnt.toNat)

/-- A marker accepted in RUN state (42_decoder.md, section 1, the padding handler): a deficit of 1..7 releases the held
byte, one of 8..15 trims it; the remainder is dropped and the marker recorded. -/
def Obligations.DecCpMarkerAccepted : Prop :=
  ∀ (cp : CodePoint) (s : State), s.dec.state = .run →
    (0x63 ≤ cp.toNat ∧ cp.toNat ≤ 0x69) ∨ (0x6A ≤ cp.toNat ∧ cp.toNat ≤ 0x71 ∧ s.dec.holdV = true) →
    exec (.decCp cp) s = .next
      { s with decOut := s.decOut ++ (if cp.toNat ≤ 0x69 ∧ s.dec.holdV = true then [s.dec.hold] else [])
               dec := { s.dec with hold := 0, holdV := false, acc := 0, cnt := 0, markPos := s.dec.pos,
                                   markD := BitVec.ofNat 4 (cp.toNat - 0x62), state := .padded,
                                   pos := s.dec.pos + 1 } }

/-- 42_decoder.md R152: in PADDED state any code point raises the error of the marker; in ERROR state nothing changes. -/
def Obligations.DecCpAfterMarkerAndAfterError : Prop :=
  ∀ (cp : CodePoint) (s : State),
    (s.dec.state = .padded → exec (.decCp cp) s = .next
      { s with dec := { s.dec with state := .error, errKind := .misplacedOrInvalidPadding, errPos := s.dec.markPos,
                                   errCp := BitVec.ofNat 21 (0x62 + s.dec.markD.toNat) } }) ∧
    (s.dec.state = .error → exec (.decCp cp) s = .next s)

/-- 60_exceptions.md R222: InvalidLane is raised in RUN state by a code point above U+FFFF or of an unassigned nibble, with
its index and value, and by nothing else. -/
def Obligations.InvalidLaneRaised : Prop :=
  (∀ cp : CodePoint, classify cp = .invalid ↔
    0x10000 ≤ cp.toNat ∨ cp.toNat / 4096 ∈ [0x1, 0x2, 0x3, 0xA, 0xD, 0xE, 0xF]) ∧
  (∀ (cp : CodePoint) (s : State), s.dec.state = .run → classify cp = .invalid → exec (.decCp cp) s = .next
    { s with dec := { s.dec with state := .error, errKind := .invalidLane, errPos := s.dec.pos, errCp := cp } }) ∧
  (∀ (i : Instr) (s t : State), exec i s = .next t → s.dec.state ≠ .error → t.dec.state = .error →
    t.dec.errKind = .invalidLane → s.dec.state = .run ∧ ∃ cp, i = .decCp cp ∧ classify cp = .invalid)

/-- The three cases of MisplacedOrInvalidPadding, and no other (60_exceptions.md, section 1). That no data code point came
before is read as DEC_HOLD_V = 0 (42_decoder.md, section 1, the padding handler). -/
def Obligations.MisplacedOrInvalidPaddingRaised : Prop :=
  (∀ (cp : CodePoint) (s : State),
    let raised := fun (p : Pos) (c : CodePoint) =>
      ({ s with dec := { s.dec with state := .error, errKind := .misplacedOrInvalidPadding, errPos := p,
                                    errCp := c } } : State)
    (s.dec.state = .run → cp.toNat ≤ 0xFFF → ¬ (0x63 ≤ cp.toNat ∧ cp.toNat ≤ 0x71) →
      exec (.decCp cp) s = .next (raised s.dec.pos cp)) ∧
    (s.dec.state = .padded →
      exec (.decCp cp) s = .next (raised s.dec.markPos (BitVec.ofNat 21 (0x62 + s.dec.markD.toNat)))) ∧
    (s.dec.state = .run → 0x6A ≤ cp.toNat → cp.toNat ≤ 0x71 → s.dec.holdV = false →
      exec (.decCp cp) s = .next (raised s.dec.pos cp))) ∧
  (∀ (i : Instr) (s t : State), exec i s = .next t → s.dec.state ≠ .error → t.dec.state = .error →
    t.dec.errKind = .misplacedOrInvalidPadding → ∃ cp, i = .decCp cp ∧
      (s.dec.state = .padded ∨
        s.dec.state = .run ∧ cp.toNat ≤ 0xFFF ∧
          (¬ (0x63 ≤ cp.toNat ∧ cp.toNat ≤ 0x71) ∨ 0x6A ≤ cp.toNat ∧ s.dec.holdV = false)))

/-- 60_exceptions.md R224: the error entry is precise. When DEC_CP enters ERROR state, DEC_STATE and the error record are all
that changed, no later code point has an effect, and no command emits on DEC_OUT any more, so the held byte never leaves. -/
def Obligations.ErrorEntryIsPrecise : Prop :=
  ∀ (cp : CodePoint) (s t : State), s.dec.state ≠ .error → exec (.decCp cp) s = .next t → t.dec.state = .error →
    t = { s with dec := { s.dec with state := .error, errKind := t.dec.errKind, errPos := t.dec.errPos,
                                     errCp := t.dec.errCp } } ∧
    t.dec.errKind ≠ .none ∧ (∀ cp', exec (.decCp cp') t = .next t) ∧
    ∀ (i : Instr) (u : State), exec i t = .next u → u.decOut = t.decOut

/-- 60_exceptions.md R226: the error record stays until DEC_END reports and clears it, DEC_CLEAR clears it, or reset does;
no command but these changes the decoder in ERROR state. -/
def Obligations.ErrorRecordStaysUntilCleared : Prop :=
  ∀ s : State, s.dec.state = .error →
    exec .decEnd s = .next { s with dec := DecEngine.reset
                                    decResp := s.decResp ++ [.err s.dec.errKind s.dec.errPos s.dec.errCp] } ∧
    exec .decClear s = .next { s with dec := DecEngine.reset } ∧
    (resetBlock s).dec = DecEngine.reset ∧
    (∀ (i : Instr) (t : State), i ≠ .decEnd → i ≠ .decClear → exec i s = .next t → t.dec = s.dec) ∧
    (∀ (w : CmdWord) (t : State), (∃ e, decode w = .error e) → performWord w s = .next t → t.dec = s.dec)

/-- 42_decoder.md R153: DEC_END, for every state. -/
def Obligations.DecEndResult : Prop :=
  decode 0x50000000#32 = .ok .decEnd ∧
  ∀ s : State, exec .decEnd s = .next
    { s with decOut := s.decOut ++ (if s.dec.state = .run ∧ s.dec.holdV = true then [s.dec.hold] else [])
             decResp := s.decResp ++ [if s.dec.state = .error then .err s.dec.errKind s.dec.errPos s.dec.errCp else .ok]
             dec := { acc := 0, cnt := 0, hold := 0, holdV := false, state := .run, pos := 0, markPos := 0, markD := 0,
                      errKind := .none, errPos := 0, errCp := 0 } }

/-- 42_decoder.md R155: DEC_CLEAR, for every state. -/
def Obligations.DecClearResult : Prop :=
  decode 0x60000000#32 = .ok .decClear ∧
  ∀ s : State, exec .decClear s = .next
    { s with dec := { acc := 0, cnt := 0, hold := 0, holdV := false, state := .run, pos := 0, markPos := 0, markD := 0,
                      errKind := .none, errPos := 0, errCp := 0 } }

/-! ## Lane-tag and marker functions -/

/-- 40_tag_functions.md R100 with the table of 10_state.md R25: the prefix nibble of the symbol's top-3 value over its low
12 bits. -/
def Obligations.LaneEncIsPrefixMux : Prop :=
  ∀ s : Symbol, (laneEnc s).toNat =
    [0x8, 0x9, 0x4, 0xB, 0xC, 0x5, 0x6, 0x7].getD (s.toNat / 4096) 0 * 4096 + s.toNat % 4096

/-- LANE_ENC is injective, and its image is the code points of the eight data nibbles, which are U+4000..U+9FFF and
U+B000..U+CFFF (40_tag_functions.md, section 1). The spec marks this as its own inference: "[derived: from rule R100
and 10_state.md rule R25]". -/
def Obligations.LaneEncInjectiveWithImage : Prop :=
  (∀ s s' : Symbol, laneEnc s = laneEnc s' → s = s') ∧
  (∀ c : CodeUnit, (∃ s, laneEnc s = c) ↔ c.toNat / 4096 ∈ [0x4, 0x5, 0x6, 0x7, 0x8, 0x9, 0xB, 0xC]) ∧
  (∀ c : CodeUnit, (∃ s, laneEnc s = c) ↔
    (0x4000 ≤ c.toNat ∧ c.toNat ≤ 0x9FFF) ∨ (0xB000 ≤ c.toNat ∧ c.toNat ≤ 0xCFFF))

/-- 40_tag_functions.md R103 with the table of 10_state.md R26: CLASSIFY, nibble by nibble. -/
def Obligations.ClassifyByNibble : Prop :=
  ∀ cp : CodePoint, classify cp =
    let data := fun (t : Nat) => Tag.data (BitVec.ofNat 15 (t * 4096 + cp.toNat % 4096))
    match cp.toNat / 4096 with
    | 0x0 => .pad ((cp.toNat : Int) - 0x62)
    | 0x4 => data 2
    | 0x5 => data 5
    | 0x6 => data 6
    | 0x7 => data 7
    | 0x8 => data 0
    | 0x9 => data 1
    | 0xB => data 3
    | 0xC => data 4
    | _ => .invalid

/-- CLASSIFY inverts LANE_ENC, and finds DATA nowhere else (40_tag_functions.md, section 2). The spec marks this as its
own inference: "[derived: from rules R100, R103 and 10_state.md rule R26]". -/
def Obligations.ClassifyInvertsLaneEnc : Prop :=
  ∀ (cp : CodePoint) (s : Symbol), classify cp = .data s ↔ cp = (laneEnc s).setWidth 21

/-- 40_tag_functions.md R106 and R107: the padding-shaped code points, their deficit candidates, and the valid markers. -/
def Obligations.PaddingShapedAndValidMarkers : Prop :=
  (∀ (cp : CodePoint) (d : Int), classify cp = .pad d ↔ cp.toNat ≤ 0xFFF ∧ d = (cp.toNat : Int) - 0x62) ∧
  (∀ (cp : CodePoint) (d : Int), classify cp = .pad d → -0x62 ≤ d ∧ d ≤ 0xF9D) ∧
  (∀ (cp : CodePoint) (d : Int), classify cp = .pad d →
    ((markerValid d = true ↔ 1 ≤ d ∧ d ≤ 15) ∧ (markerValid d = true ↔ 0x63 ≤ cp.toNat ∧ cp.toNat ≤ 0x71)))

/-- A marker is never data: the encoder's markers are 0x63..0x70, and no marker the encoder emits or the decoder
accepts is classed DATA (40_tag_functions.md, section 3). The spec marks this as its own inference: "[derived: from
rules R101, R106, R107]". -/
def Obligations.MarkersAreNeverData : Prop :=
  (∀ c : Nat, 1 ≤ c → c ≤ 14 → (marker c).toNat = 0x71 - c) ∧
  (∀ (cp : CodePoint) (s : Symbol), 0x63 ≤ cp.toNat → cp.toNat ≤ 0x71 → classify cp ≠ .data s) ∧
  (∀ (c : Nat) (s : Symbol), 1 ≤ c → c ≤ 14 → marker c ≠ laneEnc s)

/-! ## Invariants and independence -/

/-- The reset state is legal, and its streams are. The spec marks this as its own inference: 10_state.md, section 9:
"[derived: from rule R43 and the command rules R120 to R192]". -/
def Obligations.ResetIsLegal : Prop := State.reset.Legal ∧ State.reset.StreamsLegal

/-- Tier 3. Every step keeps the invariant of 10_state.md, section 9 (items 1 to 7 and the error record of section 4),
from every state that has it. The spec marks this as its own inference: "[derived: from rule R43 and the command rules
R120 to R192]". -/
def Obligations.StepKeepsLegal : Prop :=
  ∀ s t : State, s.Legal → step s = .next t → t.Legal

/-- Tier 3. Every step keeps the streams legal: ENC_OUT holds only data code points and markers 0x63..0x70, and every error
token of DEC_RESP names one of the two kinds (10_state.md, section 8). -/
def Obligations.StepKeepsStreamsLegal : Prop :=
  ∀ s t : State, s.Legal → s.StreamsLegal → step s = .next t → t.StreamsLegal

/-- The start of a decoder stream (10_state.md, section 9, item 8): until DEC_POS wraps, RUN at position 0 means that
no byte is held and no bit is left over. The spec marks this as its own inference: "[derived: from rule R43 and the
command rules R120 to R192]". -/
def Obligations.StepKeepsStreamStart : Prop :=
  ∀ s t : State, s.Legal → (s.dec.state = .run → s.dec.pos = 0 → s.dec.holdV = false ∧ s.dec.cnt = 0) →
    s.dec.pos ≠ 0xFFFFFFFF#32 → step s = .next t →
    (t.dec.state = .run → t.dec.pos = 0 → t.dec.holdV = false ∧ t.dec.cnt = 0)

/-- 10_state.md R20: no encoder command reads or writes decoder state, and no decoder command reads or writes encoder
state: its engine's registers and what it emits depend on its own engine's registers alone. -/
def Obligations.EnginesAreIndependent : Prop :=
  ∀ (i : Instr) (s s' : State),
    (isEncoderCommand i = true → s.enc = s'.enc → ∃ t t' out, exec i s = .next t ∧ exec i s' = .next t' ∧
      t.enc = t'.enc ∧ t.encOut = s.encOut ++ out ∧ t'.encOut = s'.encOut ++ out ∧
      t.dec = s.dec ∧ t.decOut = s.decOut ∧ t.decResp = s.decResp ∧ t.illegal = s.illegal) ∧
    (isDecoderCommand i = true → s.dec = s'.dec → ∃ t t' out resp, exec i s = .next t ∧ exec i s' = .next t' ∧
      t.dec = t'.dec ∧ t.decOut = s.decOut ++ out ∧ t'.decOut = s'.decOut ++ out ∧
      t.decResp = s.decResp ++ resp ∧ t'.decResp = s'.decResp ++ resp ∧
      t.enc = s.enc ∧ t.encOut = s.encOut ∧ t.illegal = s.illegal)

/-- What each command may write and how much it may emit (the table of 43_control.md, last section). The spec marks this as
its own inference: "[derived: from rules R120 to R122, R150, R153, R155, R190, R191]". -/
def Obligations.CommandsWriteOnlyTheirOwn : Prop :=
  ∀ (i : Instr) (s t : State), exec i s = .next t →
    ∃ (e : List CodeUnit) (o : List Byte) (r : List Token),
      t = { s with enc := t.enc, dec := t.dec, encOut := s.encOut ++ e, decOut := s.decOut ++ o,
                   decResp := s.decResp ++ r } ∧
      (match i with
      | .nop => t = s
      | .encByte _ => t.dec = s.dec ∧ e.length ≤ 1 ∧ o = [] ∧ r = []
      | .encEnd => t.dec = s.dec ∧ (e.length = 0 ∨ e.length = 2) ∧ o = [] ∧ r = []
      | .encClear => t.dec = s.dec ∧ e = [] ∧ o = [] ∧ r = []
      | .decCp _ => t.enc = s.enc ∧ e = [] ∧ o.length ≤ 2 ∧ r = []
      | .decEnd => t.enc = s.enc ∧ e = [] ∧ o.length ≤ 1 ∧ r.length = 1
      | .decClear => t.enc = s.enc ∧ e = [] ∧ o = [] ∧ r = [])

/-- Which commands are idempotent (20_memory.md, section 2): of the seven rows, NOP, ENC_CLEAR and DEC_CLEAR do the second
time what they did the first, with every operand and in every state, and no other row does (the sense of the word is log
entry 16). And which words presented twice leave the state that one leaves: these three, an illegal word, and ENC_END, whose
second presentation emits nothing (41_encoder.md, section 1); not ENC_BYTE or DEC_END in any state, nor DEC_CP with a data code
point in RUN state. -/
def Obligations.CommandsPresentedTwice : Prop :=
  (∀ row ∈ opcodeMap, (∀ i, mnemonicOf i = row.mnemonic → Idempotent i) ↔
    row.mnemonic ∈ ["NOP", "ENC_CLEAR", "DEC_CLEAR"]) ∧
  (∀ i ∈ [Instr.nop, .encClear, .decClear], ∀ s : State, andThen (exec i s) (exec i) = exec i s) ∧
  (∀ s : State, andThen (exec .encEnd s) (exec .encEnd) = exec .encEnd s) ∧
  (∀ (w : CmdWord) (s : State), (∃ e, decode w = .error e) →
    andThen (performWord w s) (performWord w) = performWord w s) ∧
  (∀ (b : Byte) (s : State), andThen (exec (.encByte b) s) (exec (.encByte b)) ≠ exec (.encByte b) s) ∧
  (∀ s : State, andThen (exec .decEnd s) (exec .decEnd) ≠ exec .decEnd s) ∧
  (∀ (cp : CodePoint) (sym : Symbol) (s : State), s.dec.state = .run → classify cp = .data sym →
    andThen (exec (.decCp cp) s) (exec (.decCp cp)) ≠ exec (.decCp cp) s)

/-- Encoder and decoder commands commute: either order leaves the same state (20_memory.md, section 3, item 3). -/
def Obligations.EncoderAndDecoderCommandsCommute : Prop :=
  ∀ (i j : Instr) (s : State), isEncoderCommand i = true → isDecoderCommand j = true →
    andThen (exec i s) (exec j) = andThen (exec j s) (exec i)

/-- 10_state.md R37: ILLEGAL is set by an illegal word, kept by every word, cleared by reset, and no command reads it. -/
def Obligations.IllegalIsSticky : Prop :=
  (∀ (w : CmdWord) (s t : State), performWord w s = .next t →
    (t.illegal = true ↔ s.illegal = true ∨ ∃ e, decode w = .error e)) ∧
  State.reset.illegal = false ∧ (∀ s : State, (resetBlock s).illegal = false) ∧
  (∀ (i : Instr) (s t : State) (b : Bool), exec i s = .next t →
    exec i { s with illegal := b } = .next { t with illegal := b })

/-- 10_state.md R41: the streams are empty at reset, no command removes or changes an element, and what the host has drained
and what it can still drain are the stream's elements in order. -/
def Obligations.StreamsAreAppendOnly : Prop :=
  (State.reset.encOut = [] ∧ State.reset.decOut = [] ∧ State.reset.decResp = []) ∧
  (∀ (i : Instr) (s t : State), exec i s = .next t →
    s.encOut <+: t.encOut ∧ s.decOut <+: t.decOut ∧ s.decResp <+: t.decResp) ∧
  (∀ (n : Nat) (s : State), s.encOut.take n ++ drainEncOut n s = s.encOut ∧
    s.decOut.take n ++ drainDecOut n s = s.decOut ∧ s.decResp.take n ++ drainDecResp n s = s.decResp)

/-! ## Host-visible words -/

/-- 10_state.md R38: every field of the eight words of the status read port, and the bits that read zero. -/
def Obligations.StatusPortFields : Prop :=
  ∀ s : State,
    let w := readStatus s 0
    (w.extractLsb' 0 4 = s.enc.cnt ∧ w.extractLsb' 4 3 = s.dec.cnt ∧ w.getLsbD 7 = s.dec.holdV ∧
      (w.extractLsb' 8 2).toNat = (match s.dec.state with | .run => 0 | .padded => 1 | .error => 2) ∧
      (w.extractLsb' 10 2).toNat =
        (match s.dec.errKind with | .none => 0 | .invalidLane => 1 | .misplacedOrInvalidPadding => 2) ∧
      w.getLsbD 12 = s.illegal ∧ w.extractLsb' 13 19 = 0#19) ∧
    (readStatus s 1).toNat = s.enc.acc.toNat ∧
    (readStatus s 2).toNat = s.dec.acc.toNat + 256 * s.dec.hold.toNat ∧
    readStatus s 3 = s.dec.pos ∧
    (readStatus s 4).toNat = s.dec.markD.toNat ∧
    readStatus s 5 = s.dec.markPos ∧
    readStatus s 6 = s.dec.errPos ∧
    (readStatus s 7).toNat = s.dec.errCp.toNat

/-- 30_encoding.md R85: the packed completion token. -/
def Obligations.PackedTokenFields : Prop :=
  packToken .ok = 0#64 ∧
  ∀ (pos : Pos) (cp : CodePoint),
    (packToken (.err .invalidLane pos cp)).toNat = 1 + 2 ^ 8 * cp.toNat + 2 ^ 32 * pos.toNat ∧
    (packToken (.err .misplacedOrInvalidPadding pos cp)).toNat = 2 + 2 ^ 8 * cp.toNat + 2 ^ 32 * pos.toNat

/-! ## Whole streams -/

/-- The commands implement ENCODE (41_encoder.md, section 2): from an engine with no pending bit, any words whose
encoder words are the stream of `bytes` append exactly ENCODE(bytes), whatever other words stand between. The spec
marks this as its own inference: "[derived: from rules R120, R121, R125 and 10_state.md rule R20]". -/
def Obligations.EncoderImplementsEncode : Prop :=
  ∀ (bytes : List Byte) (ws : List CmdWord) (s : State), s.enc = EncEngine.reset →
    ws.filter isEncoderWord = encoderStreamWords bytes →
    ∃ t, runWords ws s = .next t ∧ t.encOut = s.encOut ++ encodeStream bytes ∧ t.enc = EncEngine.reset

/-- How far the encoder's output has come after a part of the stream (41_encoder.md, section 2): after the bytes `done`
of a stream `done ++ rest` it has emitted the first `8n div 15` elements of the stream's ENCODE, and ENC_CNT is `8n mod
15` (10_state.md, section 3). The spec marks this as its own inference: "[derived: from rule R120 of 41_encoder.md]".
-/
def Obligations.EncoderEmitsPrefixes : Prop :=
  ∀ (done rest : List Byte) (s : State), s.enc = EncEngine.reset →
    ∃ t, runCommands (done.map .encByte) s = .next t ∧
      t.encOut = s.encOut ++ (encodeStream (done ++ rest)).take (8 * done.length / 15) ∧
      t.enc.cnt.toNat = 8 * done.length % 15

/-- The remainder count after `m` data code points of a stream is `15m mod 8` (10_state.md, section 4), and DEC_POS
counts them modulo 2^32. The spec marks this as its own inference: "[derived: from rule R150 of 42_decoder.md]". -/
def Obligations.DecoderCountsDataCodePoints : Prop :=
  ∀ (syms : List Symbol) (s : State), s.dec = DecEngine.reset →
    ∃ t, runCommands (syms.map (fun y => .decCp ((laneEnc y).setWidth 21))) s = .next t ∧
      t.dec.cnt.toNat = 15 * syms.length % 8 ∧ t.dec.pos = BitVec.ofNat 32 syms.length ∧ t.dec.state = .run

/-- The commands implement DECODE (42_decoder.md, section 2): from a cleared decoder, any words whose decoder words are
the stream of `cps` put DECODE's bytes on DEC_OUT and OK on DEC_RESP, or the error's token on DEC_RESP, and clear the
engine. The spec marks this as its own inference: 42_decoder.md, section 2: "This holds for `N < 2^32` [derived: from
rules". -/
def Obligations.DecoderImplementsDecode : Prop :=
  ∀ (cps : List CodePoint) (ws : List CmdWord) (s : State), s.dec = DecEngine.reset → cps.length < 2 ^ 32 →
    ws.filter isDecoderWord = decoderStreamWords cps →
    ∃ t, runWords ws s = .next t ∧ t.dec = DecEngine.reset ∧
      (match decodeStream cps with
      | .ok out => t.decOut = s.decOut ++ out ∧ t.decResp = s.decResp ++ [.ok]
      | .error e => s.decOut <+: t.decOut ∧
          ∃ p : Pos, p.toNat = e.pos ∧ t.decResp = s.decResp ++ [.err e.kind p e.cp])

/-- 42_decoder.md R158: decoding an encoding gives the bytes back, as functions and through the machine. -/
def Obligations.RoundTripOfEveryByteSequence : Prop :=
  ∀ bytes : List Byte,
    decodeStream ((encodeStream bytes).map (fun c => c.setWidth 21)) = .ok bytes ∧
    ∀ s : State, s.enc = EncEngine.reset → s.dec = DecEngine.reset →
      ∃ t u out, runWords (encoderStreamWords bytes) s = .next t ∧ t.encOut = s.encOut ++ out ∧
        runWords (decoderStreamWords (out.map (fun c => c.setWidth 21))) t = .next u ∧
        u.decOut = s.decOut ++ bytes ∧ u.decResp = s.decResp ++ [.ok]

/-- 41_encoder.md R126 and 42_decoder.md R159: an empty input gives an empty output; so ending a stream of no bytes emits
nothing, and ending one of no code points reports OK alone. -/
def Obligations.EmptyInputGivesEmptyOutput : Prop :=
  encodeStream [] = [] ∧ decodeStream [] = .ok [] ∧
  (∀ s : State, s.enc = EncEngine.reset → exec .encEnd s = .next s) ∧
  (∀ s : State, s.dec = DecEngine.reset → exec .decEnd s = .next { s with decResp := s.decResp ++ [.ok] })

/-- 41_encoder.md R128: an encoding holds no marker exactly when the bit length is a multiple of 15, which is when the byte
count is. -/
def Obligations.NoMarkerExactlyWhenExact : Prop :=
  ∀ bytes : List Byte,
    (8 * bytes.length % 15 = 0 ↔ bytes.length % 15 = 0) ∧
    ((∀ c ∈ encodeStream bytes, isEncoderMarker c = false) ↔ 8 * bytes.length % 15 = 0)

/-- The marker of every input length (41_encoder.md, section 2, its table): the last element of the encoding is the
marker the table gives for `n mod 15`. The spec marks this as its own inference: "[derived: from rule R125]". -/
def Obligations.MarkerOfEveryLength : Prop :=
  ∀ bytes : List Byte, bytes.length % 15 ≠ 0 →
    (encodeStream bytes).getLast?.map BitVec.toNat =
      some ([0, 0x69, 0x70, 0x68, 0x6F, 0x67, 0x6E, 0x66, 0x6D, 0x65, 0x6C, 0x64, 0x6B, 0x63, 0x6A].getD
        (bytes.length % 15) 0)

/-- The length predictors agree with the transforms (41_encoder.md, section 2; 42_decoder.md, section 2), and the wire
form has three bytes for each symbol and one for a marker (45_wire_adapter.md, section 1). The spec marks this as its
own inference: "[derived: from rule R156]", "[derived: from rules R200 and R125 of 41_encoder.md]". -/
def Obligations.LengthPredictorsAgree : Prop :=
  (∀ bytes : List Byte, (encodeStream bytes).length = encodedLength bytes.length) ∧
  (∀ bytes : List Byte, (wireEncode bytes).length =
    3 * ((8 * bytes.length + 14) / 15) + if 8 * bytes.length % 15 ≠ 0 then 1 else 0) ∧
  (∀ (cps : List CodePoint) (out : List Byte), decodeStream cps = .ok out →
    (out.length : Int) = decodedLength cps.length (cps.getLastD 0))

/-- Parsing the wire form of an encoding gives its code points back, so the wire round trip holds too
(45_wire_adapter.md, section 2). The spec marks this as its own inference: 45_wire_adapter.md, section 2: "[derived:
from rules R200, R201]". -/
def Obligations.WireRoundTrip : Prop :=
  ∀ bytes : List Byte,
    utf8Parse (wireEncode bytes) = (encodeStream bytes).map (fun c => c.setWidth 21) ∧
    wireDecode (wireEncode bytes) = .ok bytes

/-- The parser gives back the code points of any well-formed UTF-8, in each of its four forms: every scalar value, which is
every code point up to 0x10FFFF but the surrogates (45_wire_adapter.md, sections 1 and 2). -/
def Obligations.Utf8ParseInvertsUtf8Enc : Prop :=
  ∀ cps : List CodePoint, (∀ c ∈ cps, c.toNat ≤ 0x10FFFF ∧ ¬ (0xD800 ≤ c.toNat ∧ c.toNat ≤ 0xDFFF)) →
    utf8Parse (cps.flatMap utf8Enc) = cps

/-- What a failed stream leaves (20_memory.md, section 4): the first offending code point decides the error, at its index,
whatever follows it, and DEC_OUT keeps the bytes of the data code points before it less the held one. -/
def Obligations.FailedStreamKeepsReleasedBytes : Prop :=
  ∀ (syms : List Symbol) (bad : CodePoint) (rest : List CodePoint) (s : State), s.dec = DecEngine.reset →
    classify bad = .invalid →
    let data := syms.map (fun y => (laneEnc y).setWidth 21)
    ∃ out t, decodeStream data = .ok out ∧ runWords (decoderStreamWords (data ++ bad :: rest)) s = .next t ∧
      t.decOut = s.decOut ++ out.dropLast ∧
      t.decResp = s.decResp ++ [.err .invalidLane (BitVec.ofNat 32 syms.length) bad]

/-- What the decoder does not check (42_decoder.md, section 1): any data code points with no marker, or with any valid
marker that has a byte to trim or needs none, decode to `15m div 8` bytes, less one when the deficit is 8 or more. The
spec marks this as its own inference: "[derived: from rule R156]". -/
def Obligations.DecoderAcceptsUncheckedInput : Prop :=
  ∀ syms : List Symbol,
    let data := syms.map (fun y => (laneEnc y).setWidth 21)
    (∃ out, decodeStream data = .ok out ∧ out.length = 15 * syms.length / 8) ∧
    ∀ cp : CodePoint, 0x63 ≤ cp.toNat → cp.toNat ≤ 0x71 → (0x6A ≤ cp.toNat → syms ≠ []) →
      ∃ out, decodeStream (data ++ [cp]) = .ok out ∧
        out.length = 15 * syms.length / 8 - if 0x6A ≤ cp.toNat then 1 else 0
end

