-- ==== Sys2Proof/Config.lean ====
section
/-! DEFINITION. The parameters of the block (00_scope.md R7 to R10). None is free: the block has no undefined value
(93_implementation_defined.md, part 1). The tables and BASE_CHAR stand in Machine/TagFunctions.lean. -/

namespace Sys2Proof.Config

/-- `SYMBOL_W`, the width of a symbol; it cannot be configured (00_scope.md R7). -/
abbrev symbolW : Nat := 15

/-- `POS_W`, the width of positions, at the spec's default (00_scope.md R9; DESIGN CHOICE, log entry 6). -/
abbrev posW : Nat := 32

/-- `CMD_W`, the width of a command word (00_scope.md R10). -/
abbrev cmdW : Nat := 32

end Sys2Proof.Config
end

