-- ==== Sys2Proof/Laws/Decode.lean ====
section
/-! SUPPORT. The fields of a word and of an assembled word as numbers, and what the decoder's helpers answer. -/

namespace Sys2Proof

@[simp] theorem opField_toNat (w : CmdWord) : (opField w).toNat = w.toNat / 2 ^ 28 := by
  simp only [opField, BitVec.extractLsb'_toNat, Nat.shiftRight_eq_div_pow]
  have := w.isLt
  omega

@[simp] theorem rsvField_toNat (w : CmdWord) : (rsvField w).toNat = w.toNat / 2 ^ 21 % 2 ^ 7 := by
  simp only [rsvField, BitVec.extractLsb'_toNat, Nat.shiftRight_eq_div_pow]

@[simp] theorem opndField_toNat (w : CmdWord) : (opndField w).toNat = w.toNat % 2 ^ 21 := by
  simp [opndField]

@[simp] theorem operandByte_toNat (w : CmdWord) : (operandByte w).toNat = w.toNat % 2 ^ 8 := by
  simp [operandByte]

@[simp] theorem operandCp_toNat (w : CmdWord) : (operandCp w).toNat = w.toNat % 2 ^ 21 := by
  simp [operandCp]

/-- The number of an appended vector. -/
theorem toNat_append_eq {m n : Nat} (x : BitVec m) (y : BitVec n) : (x ++ y).toNat = x.toNat * 2 ^ n + y.toNat := by
  rw [BitVec.toNat_append, ← Nat.shiftLeft_add_eq_or_of_lt y.isLt, Nat.shiftLeft_eq]

@[simp] theorem assembleWord_toNat (op : BitVec 4) (opnd : BitVec 21) :
    (assembleWord op opnd).toNat = op.toNat * 2 ^ 28 + opnd.toNat := by
  unfold assembleWord
  rw [toNat_append_eq, toNat_append_eq]
  simp
  omega

/-- A word is its three fields put together (30_encoding.md R70). -/
theorem word_eq_fields (w : CmdWord) :
    w.toNat = (opField w).toNat * 2 ^ 28 + (rsvField w).toNat * 2 ^ 21 + (opndField w).toNat := by
  simp only [opField_toNat, rsvField_toNat, opndField_toNat]
  omega

/-- The number of every command's word (30_encoding.md R75). -/
theorem encode_toNat (i : Instr) : (encode i).toNat = match i with
    | .nop => 0
    | .encByte b => 2 ^ 28 + b.toNat
    | .encEnd => 2 * 2 ^ 28
    | .encClear => 3 * 2 ^ 28
    | .decCp cp => 4 * 2 ^ 28 + cp.toNat
    | .decEnd => 5 * 2 ^ 28
    | .decClear => 6 * 2 ^ 28 := by
  cases i with
  | encByte b => have := b.isLt; simp [encode, assembleWord_toNat]; omega
  | decCp b => simp [encode, assembleWord_toNat]
  | _ => rfl

theorem decodeN_ok {i j : Instr} {opnd : BitVec 21} : decodeN i opnd = .ok j ↔ opnd = 0 ∧ i = j := by
  unfold decodeN; split <;> simp_all

theorem decodeB_ok {j : Instr} {w : CmdWord} :
    decodeB w = .ok j ↔ w.toNat / 2 ^ 8 % 2 ^ 13 = 0 ∧ j = .encByte (operandByte w) := by
  have h : (w.extractLsb' 8 13 = 0) ↔ w.toNat / 2 ^ 8 % 2 ^ 13 = 0 := by
    rw [← BitVec.toNat_inj, BitVec.extractLsb'_toNat, Nat.shiftRight_eq_div_pow]; simp
  unfold decodeB
  split <;> rename_i hw <;> rw [h] at hw
  · simp only [Except.ok.injEq, hw, true_and]; exact eq_comm
  · simp only [hw, false_and, reduceCtorEq]

/-- The words a format N opcode reads: RSV and OPND zero. -/
theorem decodeN_error {i : Instr} {opnd : BitVec 21} : (∃ e, decodeN i opnd = .error e) ↔ opnd ≠ 0 := by
  unfold decodeN; split <;> simp_all

end Sys2Proof
end

