-- ==== Sys2Proof/Laws/State.lean ====
section
/-! SUPPORT. What each update of the state does to each field. -/

namespace Sys2Proof.Machine

@[simp] theorem emitEnc_enc (v : CodeUnit) (s : State) : (emitEnc v s).enc = s.enc := rfl
@[simp] theorem emitEnc_dec (v : CodeUnit) (s : State) : (emitEnc v s).dec = s.dec := rfl
@[simp] theorem emitEnc_illegal (v : CodeUnit) (s : State) : (emitEnc v s).illegal = s.illegal := rfl
@[simp] theorem emitEnc_encOut (v : CodeUnit) (s : State) : (emitEnc v s).encOut = s.encOut ++ [v] := rfl
@[simp] theorem emitEnc_decOut (v : CodeUnit) (s : State) : (emitEnc v s).decOut = s.decOut := rfl
@[simp] theorem emitEnc_decResp (v : CodeUnit) (s : State) : (emitEnc v s).decResp = s.decResp := rfl
@[simp] theorem emitEnc_hostMoves (v : CodeUnit) (s : State) : (emitEnc v s).hostMoves = s.hostMoves := rfl

@[simp] theorem emitDec_enc (b : Byte) (s : State) : (emitDec b s).enc = s.enc := rfl
@[simp] theorem emitDec_dec (b : Byte) (s : State) : (emitDec b s).dec = s.dec := rfl
@[simp] theorem emitDec_illegal (b : Byte) (s : State) : (emitDec b s).illegal = s.illegal := rfl
@[simp] theorem emitDec_encOut (b : Byte) (s : State) : (emitDec b s).encOut = s.encOut := rfl
@[simp] theorem emitDec_decOut (b : Byte) (s : State) : (emitDec b s).decOut = s.decOut ++ [b] := rfl
@[simp] theorem emitDec_decResp (b : Byte) (s : State) : (emitDec b s).decResp = s.decResp := rfl
@[simp] theorem emitDec_hostMoves (b : Byte) (s : State) : (emitDec b s).hostMoves = s.hostMoves := rfl

@[simp] theorem emitResp_enc (k : Token) (s : State) : (emitResp k s).enc = s.enc := rfl
@[simp] theorem emitResp_dec (k : Token) (s : State) : (emitResp k s).dec = s.dec := rfl
@[simp] theorem emitResp_illegal (k : Token) (s : State) : (emitResp k s).illegal = s.illegal := rfl
@[simp] theorem emitResp_encOut (k : Token) (s : State) : (emitResp k s).encOut = s.encOut := rfl
@[simp] theorem emitResp_decOut (k : Token) (s : State) : (emitResp k s).decOut = s.decOut := rfl
@[simp] theorem emitResp_decResp (k : Token) (s : State) : (emitResp k s).decResp = s.decResp ++ [k] := rfl
@[simp] theorem emitResp_hostMoves (k : Token) (s : State) : (emitResp k s).hostMoves = s.hostMoves := rfl

@[simp] theorem setEnc_enc (e : EncEngine) (s : State) : (setEnc e s).enc = e := rfl
@[simp] theorem setEnc_dec (e : EncEngine) (s : State) : (setEnc e s).dec = s.dec := rfl
@[simp] theorem setEnc_illegal (e : EncEngine) (s : State) : (setEnc e s).illegal = s.illegal := rfl
@[simp] theorem setEnc_encOut (e : EncEngine) (s : State) : (setEnc e s).encOut = s.encOut := rfl
@[simp] theorem setEnc_decOut (e : EncEngine) (s : State) : (setEnc e s).decOut = s.decOut := rfl
@[simp] theorem setEnc_decResp (e : EncEngine) (s : State) : (setEnc e s).decResp = s.decResp := rfl
@[simp] theorem setEnc_hostMoves (e : EncEngine) (s : State) : (setEnc e s).hostMoves = s.hostMoves := rfl

@[simp] theorem setDec_enc (d : DecEngine) (s : State) : (setDec d s).enc = s.enc := rfl
@[simp] theorem setDec_dec (d : DecEngine) (s : State) : (setDec d s).dec = d := rfl
@[simp] theorem setDec_illegal (d : DecEngine) (s : State) : (setDec d s).illegal = s.illegal := rfl
@[simp] theorem setDec_encOut (d : DecEngine) (s : State) : (setDec d s).encOut = s.encOut := rfl
@[simp] theorem setDec_decOut (d : DecEngine) (s : State) : (setDec d s).decOut = s.decOut := rfl
@[simp] theorem setDec_decResp (d : DecEngine) (s : State) : (setDec d s).decResp = s.decResp := rfl
@[simp] theorem setDec_hostMoves (d : DecEngine) (s : State) : (setDec d s).hostMoves = s.hostMoves := rfl

@[simp] theorem raiseIllegal_enc (s : State) : (raiseIllegal s).enc = s.enc := rfl
@[simp] theorem raiseIllegal_dec (s : State) : (raiseIllegal s).dec = s.dec := rfl
@[simp] theorem raiseIllegal_illegal (s : State) : (raiseIllegal s).illegal = true := rfl
@[simp] theorem raiseIllegal_encOut (s : State) : (raiseIllegal s).encOut = s.encOut := rfl
@[simp] theorem raiseIllegal_decOut (s : State) : (raiseIllegal s).decOut = s.decOut := rfl
@[simp] theorem raiseIllegal_decResp (s : State) : (raiseIllegal s).decResp = s.decResp := rfl
@[simp] theorem raiseIllegal_hostMoves (s : State) : (raiseIllegal s).hostMoves = s.hostMoves := rfl

@[simp] theorem withMoves_enc (ms : List HostMove) (s : State) : (withMoves ms s).enc = s.enc := rfl
@[simp] theorem withMoves_dec (ms : List HostMove) (s : State) : (withMoves ms s).dec = s.dec := rfl
@[simp] theorem withMoves_illegal (ms : List HostMove) (s : State) : (withMoves ms s).illegal = s.illegal := rfl
@[simp] theorem withMoves_encOut (ms : List HostMove) (s : State) : (withMoves ms s).encOut = s.encOut := rfl
@[simp] theorem withMoves_decOut (ms : List HostMove) (s : State) : (withMoves ms s).decOut = s.decOut := rfl
@[simp] theorem withMoves_decResp (ms : List HostMove) (s : State) : (withMoves ms s).decResp = s.decResp := rfl
@[simp] theorem withMoves_hostMoves (ms : List HostMove) (s : State) : (withMoves ms s).hostMoves = ms := rfl

@[simp] theorem clearEncoder_enc (s : State) : (clearEncoder s).enc = EncEngine.reset := rfl
@[simp] theorem clearEncoder_dec (s : State) : (clearEncoder s).dec = s.dec := rfl
@[simp] theorem clearEncoder_illegal (s : State) : (clearEncoder s).illegal = s.illegal := rfl
@[simp] theorem clearEncoder_encOut (s : State) : (clearEncoder s).encOut = s.encOut := rfl
@[simp] theorem clearEncoder_decOut (s : State) : (clearEncoder s).decOut = s.decOut := rfl
@[simp] theorem clearEncoder_decResp (s : State) : (clearEncoder s).decResp = s.decResp := rfl
@[simp] theorem clearEncoder_hostMoves (s : State) : (clearEncoder s).hostMoves = s.hostMoves := rfl

@[simp] theorem clearDecoder_enc (s : State) : (clearDecoder s).enc = s.enc := rfl
@[simp] theorem clearDecoder_dec (s : State) : (clearDecoder s).dec = DecEngine.reset := rfl
@[simp] theorem clearDecoder_illegal (s : State) : (clearDecoder s).illegal = s.illegal := rfl
@[simp] theorem clearDecoder_encOut (s : State) : (clearDecoder s).encOut = s.encOut := rfl
@[simp] theorem clearDecoder_decOut (s : State) : (clearDecoder s).decOut = s.decOut := rfl
@[simp] theorem clearDecoder_decResp (s : State) : (clearDecoder s).decResp = s.decResp := rfl
@[simp] theorem clearDecoder_hostMoves (s : State) : (clearDecoder s).hostMoves = s.hostMoves := rfl

@[simp] theorem raiseFormatError_enc (k : ErrKind) (p : Pos) (c : CodePoint) (s : State) : (raiseFormatError k p c s).enc = s.enc := rfl
@[simp] theorem raiseFormatError_dec (k : ErrKind) (p : Pos) (c : CodePoint) (s : State) : (raiseFormatError k p c s).dec = { s.dec with state := .error, errKind := k, errPos := p, errCp := c } := rfl
@[simp] theorem raiseFormatError_illegal (k : ErrKind) (p : Pos) (c : CodePoint) (s : State) : (raiseFormatError k p c s).illegal = s.illegal := rfl
@[simp] theorem raiseFormatError_encOut (k : ErrKind) (p : Pos) (c : CodePoint) (s : State) : (raiseFormatError k p c s).encOut = s.encOut := rfl
@[simp] theorem raiseFormatError_decOut (k : ErrKind) (p : Pos) (c : CodePoint) (s : State) : (raiseFormatError k p c s).decOut = s.decOut := rfl
@[simp] theorem raiseFormatError_decResp (k : ErrKind) (p : Pos) (c : CodePoint) (s : State) : (raiseFormatError k p c s).decResp = s.decResp := rfl
@[simp] theorem raiseFormatError_hostMoves (k : ErrKind) (p : Pos) (c : CodePoint) (s : State) : (raiseFormatError k p c s).hostMoves = s.hostMoves := rfl

@[simp] theorem resetBlock_enc (s : State) : (resetBlock s).enc = EncEngine.reset := rfl
@[simp] theorem resetBlock_dec (s : State) : (resetBlock s).dec = DecEngine.reset := rfl
@[simp] theorem resetBlock_illegal (s : State) : (resetBlock s).illegal = false := rfl
@[simp] theorem resetBlock_encOut (s : State) : (resetBlock s).encOut = [] := rfl
@[simp] theorem resetBlock_decOut (s : State) : (resetBlock s).decOut = [] := rfl
@[simp] theorem resetBlock_decResp (s : State) : (resetBlock s).decResp = [] := rfl
@[simp] theorem resetBlock_hostMoves (s : State) : (resetBlock s).hostMoves = s.hostMoves := rfl

/-- The bytes `emitHeld` puts on DEC_OUT: the held byte, when there is one. -/
def heldBytes (d : DecEngine) : List Byte := if d.holdV then [d.hold] else []

/-- `emitHeld` appends the held byte, when there is one, and changes nothing else. -/
theorem emitHeld_eq (s : State) : emitHeld s = { s with decOut := s.decOut ++ heldBytes s.dec } := by
  unfold emitHeld heldBytes
  cases s.dec.holdV <;> simp [emitDec]

@[simp] theorem emitHeld_enc (s : State) : (emitHeld s).enc = s.enc := by rw [emitHeld_eq]
@[simp] theorem emitHeld_dec (s : State) : (emitHeld s).dec = s.dec := by rw [emitHeld_eq]
@[simp] theorem emitHeld_illegal (s : State) : (emitHeld s).illegal = s.illegal := by rw [emitHeld_eq]
@[simp] theorem emitHeld_encOut (s : State) : (emitHeld s).encOut = s.encOut := by rw [emitHeld_eq]
@[simp] theorem emitHeld_decOut (s : State) : (emitHeld s).decOut = s.decOut ++ heldBytes s.dec := by rw [emitHeld_eq]
@[simp] theorem emitHeld_decResp (s : State) : (emitHeld s).decResp = s.decResp := by rw [emitHeld_eq]
@[simp] theorem emitHeld_hostMoves (s : State) : (emitHeld s).hostMoves = s.hostMoves := by rw [emitHeld_eq]

end Sys2Proof.Machine
end

