-- ==== Sys2Proof/Laws/Exec.lean ====
section
/-! SUPPORT. Everything a command can do, said once: a command changes its own engine's registers as a function of those
registers, appends to its own streams as a function of those registers, and leaves the rest alone. -/

namespace Sys2Proof.Machine

/-- The decoder registers after `raise FormatError(kind, pos, cp)`. -/
def raisedDec (k : ErrKind) (p : Pos) (c : CodePoint) (d : DecEngine) : DecEngine :=
  { d with state := .error, errKind := k, errPos := p, errCp := c }

/-- The decoder registers after an accepted marker. -/
def paddedDec (k : Int) (d : DecEngine) : DecEngine :=
  { d with hold := 0, holdV := false, acc := 0, cnt := 0, markPos := d.pos, markD := BitVec.ofInt 4 k,
           state := .padded, pos := d.pos + 1 }

/-- The decoder registers after a data code point. -/
def dataDec (sym : Symbol) (d : DecEngine) : DecEngine :=
  if 16 ≤ d.cnt.toNat + 15 then
    { d with hold := slice (decJoin d sym) 8 8, holdV := true, acc := slice (decJoin d sym) 16 7,
             cnt := BitVec.ofNat 3 (d.cnt.toNat + 15 - 16), pos := d.pos + 1 }
  else
    { d with hold := slice (decJoin d sym) 0 8, holdV := true, acc := slice (decJoin d sym) 8 7, cnt := 7,
             pos := d.pos + 1 }

/-- The bytes a data code point puts on DEC_OUT. -/
def dataBytes (sym : Symbol) (d : DecEngine) : List Byte :=
  heldBytes d ++ if 16 ≤ d.cnt.toNat + 15 then [slice (decJoin d sym) 0 8] else []

/-- A padding-shaped code point in RUN state is refused when its deficit is out of range or it has nothing to trim. -/
def padRefused (k : Int) (d : DecEngine) : Bool := !markerValid k || (padTrim k && !d.holdV)

/-- The decoder registers after a code point in RUN state. -/
def runDec (cp : CodePoint) (d : DecEngine) : DecEngine :=
  match classify cp with
  | .invalid => raisedDec .invalidLane d.pos cp d
  | .pad k => if padRefused k d then raisedDec .misplacedOrInvalidPadding d.pos cp d else paddedDec k d
  | .data sym => dataDec sym d

/-- The bytes a code point in RUN state puts on DEC_OUT. -/
def runBytes (cp : CodePoint) (d : DecEngine) : List Byte :=
  match classify cp with
  | .invalid => []
  | .pad k => if padRefused k d || padTrim k then [] else heldBytes d
  | .data sym => dataBytes sym d

/-- The encoder registers after a command. -/
def encAfter (i : Instr) (e : EncEngine) : EncEngine :=
  match i with
  | .encByte b =>
    if 15 ≤ e.cnt.toNat + 8 then
      { acc := slice (encJoin e b) 15 14, cnt := BitVec.ofNat 4 (e.cnt.toNat + 8 - 15) }
    else { acc := slice (encJoin e b) 0 14, cnt := BitVec.ofNat 4 (e.cnt.toNat + 8) }
  | .encEnd | .encClear => EncEngine.reset
  | .nop | .decCp _ | .decEnd | .decClear => e

/-- What a command appends to ENC_OUT. -/
def encEmits (i : Instr) (e : EncEngine) : List CodeUnit :=
  match i with
  | .encByte b => if 15 ≤ e.cnt.toNat + 8 then [laneEnc (slice (encJoin e b) 0 15)] else []
  | .encEnd => if e.cnt ≠ 0 then [laneEnc (e.acc.setWidth 15), marker e.cnt.toNat] else []
  | .nop | .encClear | .decCp _ | .decEnd | .decClear => []

/-- The decoder registers after a command. -/
def decAfter (i : Instr) (d : DecEngine) : DecEngine :=
  match i with
  | .decCp cp =>
    match d.state with
    | .error => d
    | .padded => raisedDec .misplacedOrInvalidPadding d.markPos (markerCp d.markD) d
    | .run => runDec cp d
  | .decEnd | .decClear => DecEngine.reset
  | .nop | .encByte _ | .encEnd | .encClear => d

/-- What a command appends to DEC_OUT. -/
def decEmits (i : Instr) (d : DecEngine) : List Byte :=
  match i with
  | .decCp cp => if d.state = .run then runBytes cp d else []
  | .decEnd => if d.state = .run then heldBytes d else []
  | .nop | .encByte _ | .encEnd | .encClear | .decClear => []

/-- The completion token of a stream that ends here. -/
def endToken (d : DecEngine) : Token :=
  if d.state = .error then .err d.errKind d.errPos d.errCp else .ok

/-- What a command appends to DEC_RESP. -/
def respEmits (i : Instr) (d : DecEngine) : List Token :=
  match i with
  | .decEnd => [endToken d]
  | .nop | .encByte _ | .encEnd | .encClear | .decCp _ | .decClear => []

/-- `acceptMarker` releases or trims the held byte and records the marker. -/
theorem acceptMarker_eq (k : Int) (s : State) : acceptMarker k s =
    { s with dec := paddedDec k s.dec, decOut := s.decOut ++ if padTrim k then [] else heldBytes s.dec } := by
  unfold acceptMarker
  cases padTrim k <;> simp [emitHeld_eq, setDec, paddedDec]

/-- `takePadding` raises an error when the marker is refused, and accepts it otherwise. -/
theorem takePadding_eq (k : Int) (cp : CodePoint) (s : State) : takePadding k cp s =
    if padRefused k s.dec then raiseFormatError .misplacedOrInvalidPadding s.dec.pos cp s else acceptMarker k s := by
  unfold takePadding padRefused
  cases markerValid k <;> cases padTrim k <;> cases s.dec.holdV <;> rfl

/-- `takeData` releases the held byte and the first of two produced bytes, and holds the last. -/
theorem takeData_eq (sym : Symbol) (s : State) : takeData sym s =
    { s with dec := dataDec sym s.dec, decOut := s.decOut ++ dataBytes sym s.dec } := by
  simp only [takeData, dataDec, dataBytes, emitHeld_eq, emitDec, setDec]
  split <;> simp

/-- A code point in RUN state changes the decoder registers and DEC_OUT only. -/
theorem takeInRun_eq (cp : CodePoint) (s : State) : takeInRun cp s =
    { s with dec := runDec cp s.dec, decOut := s.decOut ++ runBytes cp s.dec } := by
  unfold takeInRun runDec runBytes
  cases classify cp with
  | invalid => simp [raiseFormatError, setDec, raisedDec]
  | pad k =>
    simp only [takePadding_eq]
    cases padRefused k s.dec
    · simp [acceptMarker_eq]
    · simp [raiseFormatError, setDec, raisedDec]
  | data sym => simp only [takeData_eq]

/-- Everything a command can do: it always answers a next state, in which each engine's registers and each stream's new
elements are functions of that engine's registers, and ILLEGAL and the host's moves are as they were. -/
theorem exec_eq (i : Instr) (s : State) : exec i s = .next
    { s with enc := encAfter i s.enc, dec := decAfter i s.dec, encOut := s.encOut ++ encEmits i s.enc,
             decOut := s.decOut ++ decEmits i s.dec, decResp := s.decResp ++ respEmits i s.dec } := by
  cases i with
  | nop => simp [exec, execNop, encAfter, decAfter, encEmits, decEmits, respEmits]
  | encByte b =>
    simp only [exec, execEncByte, encAfter, decAfter, encEmits, decEmits, respEmits]
    split <;> simp [setEnc, emitEnc]
  | encEnd =>
    simp only [exec, execEncEnd, encAfter, decAfter, encEmits, decEmits, respEmits]
    split <;> simp [clearEncoder, setEnc, emitEnc, EncEngine.reset]
  | encClear =>
    simp [exec, execEncClear, encAfter, decAfter, encEmits, decEmits, respEmits, clearEncoder, setEnc, EncEngine.reset]
  | decCp cp =>
    simp only [exec, execDecCp, encAfter, decAfter, encEmits, decEmits, respEmits]
    cases hs : s.dec.state
    · simp [takeInRun_eq]
    · simp [raiseFormatError, setDec, raisedDec]
    · simp
  | decEnd =>
    simp only [exec, execDecEnd, encAfter, decAfter, encEmits, decEmits, respEmits, endToken]
    cases hs : s.dec.state <;> simp [emitHeld_eq, emitResp, clearDecoder, setDec, DecEngine.reset]
  | decClear =>
    simp [exec, execDecClear, encAfter, decAfter, encEmits, decEmits, respEmits, clearDecoder, setDec, DecEngine.reset]

end Sys2Proof.Machine
end

