-- ==== Sys2Proof/Laws/Operands.lean ====
section
/-! SUPPORT. The joined bits and their slices as arithmetic. -/

namespace Sys2Proof.Machine

/-- An operand joined above `count` pending bits is a sum (20_memory.md R50, R52). -/
theorem joinBits_eq {pending count operand : Nat} (h : pending < 2 ^ count) :
    joinBits pending count operand = pending + operand * 2 ^ count := by
  unfold joinBits
  rw [Nat.or_comm, ← Nat.shiftLeft_add_eq_or_of_lt h, Nat.shiftLeft_eq, Nat.add_comm]

/-- A slice is a quotient's remainder (00_scope.md R12). -/
@[simp] theorem slice_toNat (v lo w : Nat) : (slice v lo w).toNat = v / 2 ^ lo % 2 ^ w := by
  simp [slice, Nat.shiftRight_eq_div_pow]

/-- An operand of `w` bits joined above `count` pending bits fits `count + w` bits. -/
theorem joinBits_lt {pending count operand w : Nat} (h : pending < 2 ^ count) (ho : operand < 2 ^ w) :
    joinBits pending count operand < 2 ^ (count + w) := by
  rw [joinBits_eq h, Nat.pow_add]
  have h1 : (operand + 1) * 2 ^ count ≤ 2 ^ w * 2 ^ count := Nat.mul_le_mul_right _ ho
  have h2 : (operand + 1) * 2 ^ count = operand * 2 ^ count + 2 ^ count := by ring
  rw [Nat.mul_comm (2 ^ count)]
  omega

end Sys2Proof.Machine
end

