-- ==== Sys2Proof/Laws/WellFormed.lean ====
section
/-! SUPPORT. The decoder accepts exactly the words whose fields are well formed (30_encoding.md R77). -/

namespace Sys2Proof

theorem decodeB_isOk (w : CmdWord) : (∃ i, decodeB w = .ok i) ↔ (opndField w).toNat < 256 := by
  constructor
  · rintro ⟨i, h⟩
    have := (decodeB_ok.1 h).1
    rw [opndField_toNat]
    omega
  · intro h
    rw [opndField_toNat] at h
    exact ⟨_, decodeB_ok.2 ⟨by omega, rfl⟩⟩

theorem decodeN_isOk (i : Instr) (opnd : BitVec 21) : (∃ j, decodeN i opnd = .ok j) ↔ (opnd == 0) = true := by
  simp [decodeN_ok]

/-- A word decodes to a command exactly when its fields are well formed. -/
theorem decode_isOk_iff (w : CmdWord) : (∃ i, decode w = .ok i) ↔ (fieldsOf w).wellFormed = true := by
  unfold decode CmdFields.wellFormed fieldsOf formatOf
  dsimp only
  by_cases hr : rsvField w = 0
  · simp only [hr, ne_eq, not_true_eq_false, if_false, beq_self_eq_true, Bool.true_and]
    generalize (opField w).toNat = n
    match n with
    | 0 => exact decodeN_isOk _ _
    | 1 => exact (decodeB_isOk w).trans (by simp [Format.operandOk])
    | 2 => exact decodeN_isOk _ _
    | 3 => exact decodeN_isOk _ _
    | 4 => simp [Format.operandOk]
    | 5 => exact decodeN_isOk _ _
    | 6 => exact decodeN_isOk _ _
    | n + 7 => simp
  · have hb : (rsvField w == 0) = false := by simpa using hr
    rw [if_pos hr, hb]
    simp

end Sys2Proof
end

