-- ==== Sys2Proof/Laws/PerInstr.lean ====
section
/-! SUPPORT. What holds of every command as syntax, one lemma per constructor. -/

namespace Sys2Proof.Laws

/-- The command's word has well-formed fields, and it is selected by the row of the opcode map that has its mnemonic
(30_encoding.md R75, R77). -/
def MatchesTableRow.Statement (i : Instr) : Prop :=
  (fieldsOf (encode i)).wellFormed = true ∧ ∃ r ∈ opcodeMap, r.mnemonic = mnemonicOf i ∧ r.selects (encode i) = true

theorem MatchesTableRow.nop : MatchesTableRow.Statement .nop := by
  unfold MatchesTableRow.Statement; decide

theorem MatchesTableRow.encByte (b : Byte) : MatchesTableRow.Statement (.encByte b) := by
  refine ⟨?_, ⟨"ENC_BYTE", 0x10000000, 0xFFFFFF00⟩, by simp [opcodeMap], rfl, ?_⟩
  · revert b; decide
  · revert b; decide

theorem MatchesTableRow.encEnd : MatchesTableRow.Statement .encEnd := by
  unfold MatchesTableRow.Statement; decide

theorem MatchesTableRow.encClear : MatchesTableRow.Statement .encClear := by
  unfold MatchesTableRow.Statement; decide

theorem MatchesTableRow.decCp (cp : CodePoint) : MatchesTableRow.Statement (.decCp cp) := by
  have e : encode (.decCp cp) = 0x200#11 ++ cp := by simp [encode, assembleWord]
  refine ⟨?_, ⟨"DEC_CP", 0x40000000, 0xFFE00000⟩, by simp [opcodeMap], rfl, ?_⟩
  · have h1 : rsvField (encode (.decCp cp)) = 0 := by
      apply BitVec.eq_of_toNat_eq; rw [rsvField_toNat, encode_toNat]; have := cp.isLt; simp; omega
    have h2 : opField (encode (.decCp cp)) = 4 := by
      apply BitVec.eq_of_toNat_eq; rw [opField_toNat, encode_toNat]; have := cp.isLt; simp; omega
    simp [CmdFields.wellFormed, fieldsOf, h1, h2, formatOf, Format.operandOk]
  · rw [e, OpcodeRow.selects, show (0xFFE00000 : CmdWord) = 0x7FF#11 ++ 0#21 by decide, BitVec.and_append,
      BitVec.and_zero, beq_iff_eq]
    decide

theorem MatchesTableRow.decEnd : MatchesTableRow.Statement .decEnd := by
  unfold MatchesTableRow.Statement; decide

theorem MatchesTableRow.decClear : MatchesTableRow.Statement .decClear := by
  unfold MatchesTableRow.Statement; decide

end Sys2Proof.Laws
end

