-- ==== Sys2Proof/Laws/Step.lean ====
section
/-! SUPPORT. Everything one word and one step can do, said once. -/

namespace Sys2Proof.Machine

/-- The state a command leaves, by its engine's registers and what it emits (Laws/Exec.lean). -/
def afterCommand (i : Instr) (s : State) : State :=
  { s with enc := encAfter i s.enc, dec := decAfter i s.dec, encOut := s.encOut ++ encEmits i s.enc,
           decOut := s.decOut ++ decEmits i s.dec, decResp := s.decResp ++ respEmits i s.dec }

/-- A command always answers the next state. -/
theorem exec_next (i : Instr) (s : State) : exec i s = .next (afterCommand i s) := exec_eq i s

/-- A word names a command and is performed as it, or sets ILLEGAL. -/
theorem performWord_cases {w : CmdWord} {s t : State} (h : performWord w s = .next t) :
    (∃ i, decode w = .ok i ∧ t = afterCommand i s) ∨
    ((∃ e, decode w = .error e) ∧ t = { s with illegal := true }) := by
  unfold performWord at h
  split at h
  · rename_i i hi
    rw [exec_next] at h
    cases h
    exact .inl ⟨i, hi, rfl⟩
  · rename_i e he
    cases h
    exact .inr ⟨⟨e, he⟩, rfl⟩

/-- A step holds the state, performs the next word on the list, or resets. -/
theorem step_cases {s t : State} (h : step s = .next t) :
    (s.hostMoves = [] ∧ t = s) ∨
    (∃ w rest i, s.hostMoves = .command w :: rest ∧ decode w = .ok i ∧ t = afterCommand i { s with hostMoves := rest }) ∨
    (∃ w rest, s.hostMoves = .command w :: rest ∧ (∃ e, decode w = .error e) ∧
      t = { s with hostMoves := rest, illegal := true }) ∨
    (∃ rest, s.hostMoves = .reset :: rest ∧ t = { State.reset with hostMoves := rest }) := by
  unfold step at h
  split at h
  · rename_i hm
    cases h
    exact .inl ⟨hm, rfl⟩
  · rename_i w rest hm
    obtain ⟨i, hi, rfl⟩ | ⟨he, rfl⟩ := performWord_cases h
    · exact .inr (.inl ⟨w, rest, i, hm, hi, rfl⟩)
    · exact .inr (.inr (.inl ⟨w, rest, hm, he, rfl⟩))
  · rename_i rest hm
    cases h
    exact .inr (.inr (.inr ⟨rest, hm, rfl⟩))

end Sys2Proof.Machine
end

