-- ==== Sys2Proof/Laws/TagFunctions.lean ====
section
/-! SUPPORT. The tag functions as arithmetic on numbers. -/

namespace Sys2Proof.Machine

/-- The number of a data code point: prefix nibble over the low 12 bits. -/
theorem laneEnc_toNat (s : Symbol) :
    (laneEnc s).toNat = (lanePrefix (s.extractLsb' 12 3)).toNat * 2 ^ 12 + s.toNat % 2 ^ 12 := by
  unfold laneEnc
  rw [toNat_append_eq]
  simp

/-- The prefix nibbles of LANE_PREFIX (10_state.md R25). -/
theorem lanePrefix_toNat (t : BitVec 3) :
    (lanePrefix t).toNat = [0x8, 0x9, 0x4, 0xB, 0xC, 0x5, 0x6, 0x7].getD t.toNat 0 := by
  revert t; decide

/-- NIBBLE_CLASS inverts LANE_PREFIX (10_state.md R26). -/
theorem nibbleClass_lanePrefix (t : BitVec 3) : nibbleClass (lanePrefix t) = .data t := by
  revert t; decide

/-- A nibble is a data nibble exactly for the entry of LANE_PREFIX it inverts. -/
theorem nibbleClass_eq_data (n : BitVec 4) (t : BitVec 3) : nibbleClass n = .data t ↔ n = lanePrefix t := by
  revert n t; decide

/-- The padding nibble is 0 alone (10_state.md R26). -/
theorem nibbleClass_eq_pad (n : BitVec 4) : nibbleClass n = .pad ↔ n = 0 := by
  revert n; decide

/-- A code point above U+FFFF is invalid; below, its nibble decides (40_tag_functions.md R103). -/
theorem classify_eq (cp : CodePoint) : classify cp =
    if 0x10000 ≤ cp.toNat then .invalid
    else match nibbleClass (cp.extractLsb' 12 4) with
      | .data t => .data (t ++ cp.extractLsb' 0 12)
      | .pad => .pad (deficitOf cp)
      | .invalid => .invalid := by
  have h : (cp.extractLsb' 16 5 ≠ 0) ↔ 0x10000 ≤ cp.toNat := by
    have := cp.isLt
    rw [ne_eq, ← BitVec.toNat_inj, BitVec.extractLsb'_toNat, Nat.shiftRight_eq_div_pow]
    simp only [BitVec.ofNat_eq_ofNat, BitVec.toNat_ofNat]
    omega
  unfold classify
  by_cases hh : 0x10000 ≤ cp.toNat
  · rw [if_pos (h.2 hh), if_pos hh]
  · exact (if_neg (h.not.2 hh)).trans (if_neg hh).symm

@[simp] theorem nibble_toNat (cp : CodePoint) : (cp.extractLsb' 12 4).toNat = cp.toNat / 2 ^ 12 % 2 ^ 4 := by
  simp only [BitVec.extractLsb'_toNat, Nat.shiftRight_eq_div_pow]

end Sys2Proof.Machine
end

