-- ==== Sys2Proof/Tests/Slice0.lean ====
section
/-! SUPPORT. Tests on fixed values, each expected value from the spec (the vector V<n> of 95_test_vectors.md or the rule R<n>
its name or comment gives), and one witness for the hypotheses of each statement that has some. -/

namespace Sys2Proof.Tests

open Sys2Proof.Machine

/-! ## Small states -/

/-- The state an outcome gives. -/
def got (o : Host.Outcome State Fault Refusal) : Option State :=
  match o with
  | .next s => some s
  | .fault _ => none
  | .refused _ => none

/-- Reset, with the encoder's pending bits. -/
def encSt (acc : BitVec 14) (cnt : BitVec 4) : State := { State.reset with enc := { acc := acc, cnt := cnt } }

/-- Reset, with a decoder in RUN state that holds a byte. -/
def runSt (acc : BitVec 7) (cnt : BitVec 3) (hold : Byte) (pos : Pos) : State :=
  { State.reset with dec := { DecEngine.reset with acc := acc, cnt := cnt, hold := hold, holdV := true, pos := pos } }

/-- Reset, with a decoder that took a marker at `markPos`. -/
def padSt (markPos : Pos) (markD : BitVec 4) : State :=
  { State.reset with dec := { DecEngine.reset with state := .padded, pos := markPos + 1, markPos := markPos, markD := markD } }

/-- Reset, with a decoder that recorded InvalidLane for `cp` at `pos`. -/
def errSt (pos : Pos) (cp : CodePoint) : State :=
  { State.reset with dec := { DecEngine.reset with state := .error, pos := pos, errKind := .invalidLane, errPos := pos,
                                                   errCp := cp } }

/-! ## Well-formedness (30_encoding.md R77, R80, R81) -/

theorem test_fields_ok : (CmdFields.mk 1 0 0xFF).wellFormed = true ∧ (CmdFields.mk 4 0 0x1FFFFF).wellFormed = true := by decide
theorem test_reserved_field_refused : (CmdFields.mk 4 1 0).wellFormed = false := by decide
theorem test_reserved_opcode_refused : (CmdFields.mk 7 0 0).wellFormed = false ∧ (CmdFields.mk 15 0 0).wellFormed = false := by decide
theorem test_format_n_operand_refused : (CmdFields.mk 0 0 1).wellFormed = false ∧ (CmdFields.mk 6 0 1).wellFormed = false := by decide
theorem test_format_b_operand_refused : (CmdFields.mk 1 0 0x100).wellFormed = false := by decide
theorem test_byte_operand_refused : (AsmLine.encByte 256).wellFormed = false ∧ (AsmLine.encByte 255).wellFormed = true := by decide
theorem test_cp_operand_refused : (AsmLine.decCp 0x200000).wellFormed = false ∧ (AsmLine.decCp 0x1FFFFF).wellFormed = true := by decide
theorem test_raw_word_refused : (AsmLine.rawWord 0x100000000).wellFormed = false := by decide
theorem test_pseudo_operands_refused :
    (AsmLine.encBytes [1, 256]).wellFormed = false ∧ (AsmLine.encStream [256]).wellFormed = false ∧
    (AsmLine.decCps [0x200000]).wellFormed = false ∧ (AsmLine.decStream [0x200000]).wellFormed = false ∧
    (AsmLine.decUtf8 [256]).wellFormed = false := by decide
theorem test_pseudo_without_operand :
    (AsmLine.encBytes []).wellFormed = false ∧ (AsmLine.decCps []).wellFormed = false ∧
    (AsmLine.decUtf8 []).wellFormed = false ∧ (AsmLine.encStream []).wellFormed = true ∧
    (AsmLine.decStream []).wellFormed = true := by decide

/-! ## Decoding: words written out from 30_encoding.md R70 to R75 as OP, RSV, OPND; V22 -/

theorem test_decode_nop : decode 0b0000_0000000_000000000000000000000 = .ok .nop := by rfl
theorem test_decode_encByte : decode 0b0001_0000000_000000000000010100101 = .ok (.encByte 0xA5) := by rfl
theorem test_decode_encEnd : decode 0b0010_0000000_000000000000000000000 = .ok .encEnd := by rfl
theorem test_decode_encClear : decode 0b0011_0000000_000000000000000000000 = .ok .encClear := by rfl
theorem test_decode_decCp : decode 0b0100_0000000_100000111111100000001 = .ok (.decCp 0x107F01) := by rfl
theorem test_decode_decEnd : decode 0b0101_0000000_000000000000000000000 = .ok .decEnd := by rfl
theorem test_decode_decClear : decode 0b0110_0000000_000000000000000000000 = .ok .decClear := by rfl

/-- V22: the illegal words, each refused for its reason. -/
theorem test_decode_illegal_words :
    decode 0x00000001 = .error .operandBits ∧ decode 0x00200000 = .error .reservedField ∧
    decode 0x10000100 = .error .operandBits ∧ decode 0x101FFFFF = .error .operandBits ∧
    decode 0x20000001 = .error .operandBits ∧ decode 0x40200000 = .error .reservedField ∧
    decode 0x5FFFFFFF = .error .reservedField ∧ decode 0x70000000 = .error .reservedOpcode ∧
    decode 0x80000000 = .error .reservedOpcode ∧ decode 0xF0000000 = .error .reservedOpcode ∧
    decode 0xFFFFFFFF = .error .reservedField := by
  refine ⟨?_, ?_, ?_, ?_, ?_, ?_, ?_, ?_, ?_, ?_, ?_⟩ <;> rfl

/-- 30_encoding.md R75: no two rows of the map select one word: they differ in a bit both masks fix. -/
theorem test_opcode_rows_disjoint : opcodeMap.Pairwise (fun r q => r.mask &&& q.mask &&& (r.pat ^^^ q.pat) ≠ 0) := by decide

theorem test_decodeTableWord :
    decodeTableWord 32 0x100000FF = some (.encByte 0xFF) ∧ decodeTableWord 32 0x40000069 = some (.decCp 0x69) ∧
    decodeTableWord 32 0x70000000 = none := by decide

theorem test_withFetchWord : got (step (State.reset.withFetchWord 32 0x100000FF)) = some (encSt 0xFF 8) := by decide

/-! ## One step of each command -/

/-- 43_control.md R190. -/
theorem test_nop : got (exec .nop (runSt 0x7F 7 0xAA 3)) = some (runSt 0x7F 7 0xAA 3) := by decide

/-- V14, row 2: the symbol leaves and one bit stays. -/
theorem test_encByte_emits : got (exec (.encByte 0xFF) (encSt 0x0000 8)) = some { encSt 0x0001 1 with encOut := [0x7F00] } := by decide

/-- V14, row 3: no symbol yet. -/
theorem test_encByte_pends : got (exec (.encByte 0x00) (encSt 0x0001 1)) = some (encSt 0x0001 9) := by decide

/-- V14, row 17: eight pending bits, deficit 7. -/
theorem test_encEnd_emits_marker :
    got (exec .encEnd (encSt 0x0000 8)) = some { State.reset with encOut := [0x8000, 0x0069] } := by decide

/-- V17: nothing pending, nothing emitted. -/
theorem test_encEnd_empty : got (exec .encEnd State.reset) = some State.reset := by decide

/-- V17: pending bits are dropped. -/
theorem test_encClear : got (exec .encClear (encSt 0x00AB 8)) = some State.reset := by decide

/-- V18, row 2: the held byte and one more leave, the last is held. -/
theorem test_decCp_data :
    got (exec (.decCp 0x7E01) (runSt 0x7F 7 0x00 1)) = some { runSt 0x3F 6 0x00 2 with decOut := [0x00, 0xFF] } := by decide

/-- V19, row 3: deficit 14 trims the held byte. -/
theorem test_decCp_trimming_marker : got (exec (.decCp 0x0070) (runSt 0x00 6 0x00 2)) = some (padSt 2 14) := by decide

/-- V18, row 11, before its marker: the held byte leaves with OK. -/
theorem test_decEnd_ok :
    got (exec .decEnd (runSt 0x7F 7 0xFF 1)) = some { State.reset with decOut := [0xFF], decResp := [.ok] } := by decide

/-- V21, row 1: the record is reported and cleared. -/
theorem test_decEnd_error :
    got (exec .decEnd (errSt 1 0xA000)) = some { State.reset with decResp := [.err .invalidLane 1 0xA000] } := by decide

/-- V21, row 3: the record is dropped, no token. -/
theorem test_decClear : got (exec .decClear (errSt 0 0xA000)) = some State.reset := by decide

/-- V22: an illegal word sets ILLEGAL. -/
theorem test_illegal_word : got (performWord 0x70000000 State.reset) = some { State.reset with illegal := true } := by decide

/-! ## Errors of DEC_CP (V20) -/

theorem test_invalid_lane : got (exec (.decCp 0xA000) (runSt 0 7 0 1)) =
    some { State.reset with dec := { (runSt 0 7 0 1).dec with state := .error, errKind := .invalidLane, errPos := 1, errCp := 0xA000 } } := by decide

theorem test_marker_not_last : got (exec (.decCp 0xA000) (padSt 1 7)) =
    some { State.reset with dec := { (padSt 1 7).dec with state := .error, errKind := .misplacedOrInvalidPadding, errPos := 1, errCp := 0x69 } } := by decide

theorem test_deficits_out_of_range :
    (got (exec (.decCp 0x62) (runSt 0 7 0 1))).map (fun t => (t.dec.errKind, t.dec.errPos, t.dec.errCp)) =
      some (.misplacedOrInvalidPadding, 1, 0x62) ∧
    (got (exec (.decCp 0x72) (runSt 0 7 0 1))).map (fun t => (t.dec.errKind, t.dec.errPos, t.dec.errCp)) =
      some (.misplacedOrInvalidPadding, 1, 0x72) := by decide

theorem test_nothing_to_trim :
    (got (exec (.decCp 0x6A) State.reset)).map (fun t => (t.dec.errKind, t.dec.errPos, t.dec.errCp)) =
      some (.misplacedOrInvalidPadding, 0, 0x6A) := by decide

/-! ## Lane-tag functions (V12, V13), whole streams (V1, V11), host-visible words (V24, R85) -/

theorem test_laneEnc_every_entry :
    [0x0000, 0x1FFF, 0x2D52, 0x3000, 0x4FFF, 0x5FF5, 0x6000, 0x7E01].map laneEnc =
      [0x8000, 0x9FFF, 0x4D52, 0xB000, 0xCFFF, 0x5FF5, 0x6000, 0x7E01] := by decide

theorem test_classify_bounds :
    [0x0061, 0x0063, 0x0FFF, 0x3FFF, 0x4000, 0x9FFF, 0xAFFF, 0xB000, 0xCFFF, 0xD000, 0x10000].map classify =
      [.pad (-1), .pad 1, .pad 3997, .invalid, .data 0x2000, .data 0x1FFF, .invalid, .data 0x3000, .data 0x4FFF,
       .invalid, .invalid] := by decide

/-- 40_tag_functions.md R102: the lane of each data nibble; the other nibbles have none. -/
theorem test_laneOf :
    [0x4, 0x7, 0x8, 0x9, 0xB, 0xC, 0x0, 0xA, 0xD].map laneOf =
      [some .l01, some .l01, some .l100, some .l100, some .l1011, some .l1100, none, none, none] := by decide

/-- V1. -/
theorem test_encode_worked_example :
    encodeStream [0x00, 0xFF, 0x00, 0xFF, 0xAA, 0x55, 0xAA, 0x55, 0xFF, 0xA5, 0x5A, 0xF0, 0x0F, 0xAA, 0x55, 0x00] =
      [0x7F00, 0x7E01, 0x56AB, 0x4D52, 0x5FF5, 0x8B54, 0x83FC, 0x4AD5, 0x8000, 0x0069] := by decide

/-- V1: the UTF-8 of the first symbols and the marker; V25: ill-formed bytes. -/
theorem test_utf8 :
    utf8Enc 0x7F00 = [0xE7, 0xBC, 0x80] ∧ utf8Enc 0x69 = [0x69] ∧ utf8Parse [0xE8, 0x80, 0x80, 0x69] = [0x8000, 0x69] ∧
    utf8Parse [0xE8, 0x80] = [0xFFFD, 0xFFFD] ∧ utf8Parse [0xC0, 0x80] = [0xFFFD, 0xFFFD] ∧
    utf8Parse [0xED, 0xA0, 0x80] = [0xFFFD, 0xFFFD, 0xFFFD] ∧ utf8Parse [0xF0, 0x90, 0x80, 0x80] = [0x10000] := by decide

/-- V11 and the decoder's accepted odd inputs of V20. -/
theorem test_decode_odd_inputs :
    (decodeStream [0x7FFF]).toOption = some [0xFF] ∧ (decodeStream [0x8000, 0x63]).toOption = some [0x00] ∧
    (decodeStream [0x8000, 0x71]).toOption = some [] ∧ (decodeStream [0x69]).toOption = some [] ∧
    (decodeStream [0x8000, 0x8000, 0x69]).toOption = some [0x00, 0x00, 0x00] ∧
    (decodeStream [0x71]).toOption = none := by decide

/-- V26. -/
theorem test_length_predictors :
    [0, 1, 2, 15, 16, 29, 100].map encodedLength = [0, 2, 3, 8, 10, 17, 55] ∧ decodedLength 0 0x8000 = 0 ∧
    decodedLength 9 0x6A = 14 ∧ decodedLength 10 0x69 = 16 ∧ decodedLength 2 0x62 = 3 := by decide

/-- V24, row 5: after InvalidLane at position 1. -/
theorem test_status_port :
    let s := { State.reset with dec := { (runSt 0 7 0 1).dec with state := .error, errKind := .invalidLane, errPos := 1, errCp := 0xA000 } }
    [0, 1, 2, 3, 4, 5, 6, 7].map (readStatus s) = [0x6F0, 0, 0, 1, 0, 0, 1, 0xA000] := by decide

/-- 30_encoding.md R85. -/
theorem test_packed_token : packToken (.err .misplacedOrInvalidPadding 1 0x69) = 0x0000000100006902 := by decide

/-- 30_encoding.md R80, R81, and the programs of 95_test_vectors.md, part 3. -/
theorem test_assembler :
    assembleText "enc.byte 0xFF                ; 0x100000FF" = some [0x100000FF] ∧
    assembleText "dec.cp U+8000" = some [0x40008000] ∧ assembleText "enc.stream 0, 255" = some [0x10000000, 0x100000FF, 0x20000000] ∧
    assembleText ".word 0x70000000" = some [0x70000000] ∧ assembleText "enc.byte 256" = none := by decide

/-! ## Witnesses: a state and operands that meet the hypotheses of each statement that has some -/

/-- A legal state in RUN with a held byte and seven remainder bits, a word list ahead. -/
def liveSt : State :=
  { runSt 0x7F 7 0xAA 3 with enc := { acc := 0x0001, cnt := 1 }, encOut := [0x7F00], decResp := [.ok],
                             hostMoves := [.command 0x40008000, .command 0x70000000, .reset] }

theorem witness_liveSt_legal : liveSt.Legal :=
  ⟨⟨by decide, by decide⟩, ⟨by decide, by decide, by decide, by decide, by decide, by decide, by decide, by decide⟩⟩

theorem witness_DecodeIsDecodeCmd :
    decode 0x40000069 = .ok (.decCp 0x69) ∧ decode 0x70000000 = .error .reservedOpcode := ⟨rfl, rfl⟩

theorem witness_OpcodeMapSelectsCommands :
    7 ≤ ((0x70000000 : CmdWord).extractLsb' 28 4).toNat ∧ 7 ≤ ((0xF0000000 : CmdWord).extractLsb' 28 4).toNat := by decide

theorem witness_IllegalWordsOfTheCommandSet :
    (∃ e, decode 0x00200000 = .error e) ∧ (∃ e, decode 0x70000000 = .error e) ∧ (∃ e, decode 0x00000001 = .error e) ∧
    (∃ e, decode 0x10000100 = .error e) ∧ ∃ t, exec .decEnd liveSt = .next t :=
  ⟨⟨_, rfl⟩, ⟨_, rfl⟩, ⟨_, rfl⟩, ⟨_, rfl⟩, ⟨_, rfl⟩⟩

theorem witness_StepRunsTheDecodedCommand :
    liveSt.hostMoves = .command 0x40008000 :: [.command 0x70000000, .reset] ∧ decode 0x40008000 = .ok (.decCp 0x8000) :=
  ⟨rfl, rfl⟩

theorem witness_StepOnIllegalWordSetsIllegal :
    (State.reset.withFetchWord 32 0x70000000).hostMoves = .command 0x70000000 :: [] ∧
    decode 0x70000000 = .error .reservedOpcode := ⟨rfl, rfl⟩

theorem witness_StepOnResetAndIdle :
    ({ liveSt with hostMoves := [.reset] } : State).hostMoves = .reset :: [] ∧ State.reset.hostMoves = [] := ⟨rfl, rfl⟩

theorem witness_SteppingThePresentedWordsRunsThem :
    ({ liveSt with hostMoves := [.command 0x40008000, .command 0x70000000] } : State).hostMoves =
      [0x40008000, 0x70000000].map .command := rfl

theorem witness_WordOutsideTheRowsSetsIllegalOnly_sticky :
    ({ liveSt with illegal := true } : State).illegal = true ∧
    ∃ t, performWord 0x50000000 { liveSt with illegal := true } = .next t := ⟨rfl, _, rfl⟩

theorem witness_WordOutsideTheRowsSetsIllegalOnly (i : Instr) : (0x70000000 : CmdWord) ≠ encode i := by
  intro h
  have h1 := congrArg BitVec.toNat h
  rw [encode_toNat] at h1
  cases i with
  | encByte b => have := b.isLt; simp at h1; omega
  | decCp cp => have := cp.isLt; simp at h1; omega
  | nop => exact absurd h1 (by decide)
  | encEnd => exact absurd h1 (by decide)
  | encClear => exact absurd h1 (by decide)
  | decEnd => exact absurd h1 (by decide)
  | decClear => exact absurd h1 (by decide)

/-- Every ENC_CNT at the ends of the two clauses, with all pending bits set. -/
theorem witness_EncBytePendingBitsArithmetic :
    ((encSt 0x3FFF 14).enc.Legal ∧ 7 ≤ (encSt 0x3FFF 14).enc.cnt.toNat) ∧
    ((encSt 0x007F 7).enc.Legal ∧ 7 ≤ (encSt 0x007F 7).enc.cnt.toNat) ∧
    ((encSt 0x003F 6).enc.Legal ∧ (encSt 0x003F 6).enc.cnt.toNat < 7) ∧
    (State.reset.enc.Legal ∧ State.reset.enc.cnt.toNat < 7) := by
  refine ⟨⟨⟨?_, ?_⟩, ?_⟩, ⟨⟨?_, ?_⟩, ?_⟩, ⟨⟨?_, ?_⟩, ?_⟩, ⟨?_, ?_⟩, ?_⟩ <;> decide

theorem witness_DecCpDataArithmetic :
    (liveSt.dec.Legal ∧ liveSt.dec.state = .run ∧ classify 0x9FFF = .data 0x1FFF ∧ liveSt.dec.cnt ≠ 0) ∧
    ((runSt 1 1 0xFF 7).dec.Legal ∧ (runSt 1 1 0xFF 7).dec.cnt ≠ 0) ∧
    ((runSt 0 0 0xFF 8).dec.Legal ∧ (runSt 0 0 0xFF 8).dec.state = .run ∧ (runSt 0 0 0xFF 8).dec.cnt = 0) ∧
    (State.reset.dec.Legal ∧ State.reset.dec.cnt = 0) := by
  refine ⟨⟨witness_liveSt_legal.dec, rfl, by decide, by decide⟩, ⟨⟨?_, ?_, ?_, ?_, ?_, ?_, ?_, ?_⟩, ?_⟩,
    ⟨⟨?_, ?_, ?_, ?_, ?_, ?_, ?_, ?_⟩, ?_, ?_⟩, ⟨?_, ?_, ?_, ?_, ?_, ?_, ?_, ?_⟩, ?_⟩ <;> decide

/-- Markers 0x63 and 0x69 need no held byte; 0x6A and 0x71 need one. -/
theorem witness_DecCpMarkerAccepted :
    State.reset.dec.state = .run ∧ liveSt.dec.state = .run ∧ liveSt.dec.holdV = true ∧
    (0x63 ≤ (0x63 : CodePoint).toNat ∧ (0x63 : CodePoint).toNat ≤ 0x69) ∧
    (0x63 ≤ (0x69 : CodePoint).toNat ∧ (0x69 : CodePoint).toNat ≤ 0x69) ∧
    (0x6A ≤ (0x6A : CodePoint).toNat ∧ (0x6A : CodePoint).toNat ≤ 0x71) ∧
    (0x6A ≤ (0x71 : CodePoint).toNat ∧ (0x71 : CodePoint).toNat ≤ 0x71) := by decide

theorem witness_DecCpAfterMarkerAndAfterError : (padSt 1 15).dec.state = .padded ∧ (errSt 1 0xA000).dec.state = .error := by decide

theorem witness_InvalidLaneRaised :
    liveSt.dec.state = .run ∧
    [0x1000, 0x3FFF, 0xA000, 0xAFFF, 0xD000, 0xFFFF, 0x10000, 0x1FFFFF].map classify = List.replicate 8 .invalid ∧
    ∃ t, exec (.decCp 0x1FFFFF) liveSt = .next t ∧ t.dec.state = .error ∧ t.dec.errKind = .invalidLane :=
  ⟨rfl, by decide, _, rfl, rfl, rfl⟩

theorem witness_MisplacedOrInvalidPaddingRaised :
    (∃ t, exec (.decCp 0x62) liveSt = .next t ∧ t.dec.state = .error ∧ t.dec.errKind = .misplacedOrInvalidPadding) ∧
    (∃ t, exec (.decCp 0x8000) (padSt 1 1) = .next t ∧ t.dec.state = .error ∧ t.dec.errKind = .misplacedOrInvalidPadding) ∧
    (liveSt.dec.state = .run ∧ ([0x0, 0x62, 0x72, 0xFFF] : List CodePoint).all (fun cp =>
      cp.toNat ≤ 0xFFF ∧ ¬ (0x63 ≤ cp.toNat ∧ cp.toNat ≤ 0x71))) ∧
    (padSt 1 1).dec.state = .padded ∧
    (State.reset.dec.state = .run ∧ State.reset.dec.holdV = false ∧
      ([0x6A, 0x71] : List CodePoint).all (fun cp => 0x6A ≤ cp.toNat ∧ cp.toNat ≤ 0x71)) :=
  ⟨⟨_, rfl, rfl, rfl⟩, ⟨_, rfl, rfl, rfl⟩, by decide⟩

theorem witness_ErrorEntryIsPrecise :
    liveSt.dec.state ≠ .error ∧
    ∃ t u, exec (.decCp 0xA000) liveSt = .next t ∧ t.dec.state = .error ∧ exec .decEnd t = .next u :=
  ⟨by decide, _, _, rfl, rfl, rfl⟩

theorem witness_ErrorRecordStaysUntilCleared :
    (errSt 1 0xA000).dec.state = .error ∧ (∃ t, exec (.decCp 0x8000) (errSt 1 0xA000) = .next t) ∧
    (∃ e, decode 0x70000000 = .error e) ∧ ∃ t, performWord 0x70000000 (errSt 1 0xA000) = .next t :=
  ⟨rfl, ⟨_, rfl⟩, ⟨_, rfl⟩, ⟨_, rfl⟩⟩

theorem witness_LaneEncInjectiveWithImage : laneEnc 0x2D52 = laneEnc 0x2D52 ∧ laneEnc 0x2D52 = 0x4D52 := by decide

theorem witness_PaddingShapedAndValidMarkers :
    classify 0x0 = .pad (-98) ∧ classify 0x63 = .pad 1 ∧ classify 0x71 = .pad 15 ∧ classify 0xFFF = .pad 3997 := by decide

theorem witness_MarkersAreNeverData :
    (0x63 ≤ (0x71 : CodePoint).toNat ∧ (0x71 : CodePoint).toNat ≤ 0x71) ∧ (marker 1).toNat = 0x70 ∧ (marker 14).toNat = 0x63 := by
  decide

/-- Steps of each kind from legal states: a command, an illegal word, a reset, an idle step. -/
theorem witness_StepKeepsLegal :
    (liveSt.Legal ∧ ∃ t, step liveSt = .next t ∧ t ≠ liveSt) ∧
    (∃ t, step { liveSt with hostMoves := [.command 0x70000000] } = .next t) ∧
    (∃ t, step { liveSt with hostMoves := [.reset] } = .next t) ∧ ∃ t, step State.reset = .next t :=
  ⟨⟨witness_liveSt_legal, _, rfl, by decide⟩, ⟨_, rfl⟩, ⟨_, rfl⟩, ⟨_, rfl⟩⟩

theorem witness_StepKeepsStreamsLegal : liveSt.Legal ∧ liveSt.StreamsLegal ∧ ∃ t, step liveSt = .next t :=
  ⟨witness_liveSt_legal, ⟨fun c h => by rw [List.mem_singleton.1 h]; decide, fun k h => by rw [List.mem_singleton.1 h]; decide⟩,
    _, rfl⟩

/-- A stream that has not started, before an illegal word; a stream under way, before the command that ends it. -/
theorem witness_StepKeepsStreamStart :
    (∃ s t, s = State.reset.withFetchWord 32 0x70000000 ∧ s.Legal ∧ s.dec.holdV = false ∧ s.dec.cnt = 0 ∧
      s.dec.pos ≠ 0xFFFFFFFF ∧ step s = .next t ∧ t.dec.state = .run ∧ t.dec.pos = 0) ∧
    (∃ s t, s = { liveSt with hostMoves := [.command 0x50000000] } ∧ s.Legal ∧ s.dec.pos ≠ 0 ∧ s.dec.pos ≠ 0xFFFFFFFF ∧
      step s = .next t ∧ t.dec.state = .run ∧ t.dec.pos = 0) := by
  refine ⟨⟨_, _, rfl, ⟨⟨?_, ?_⟩, ⟨?_, ?_, ?_, ?_, ?_, ?_, ?_, ?_⟩⟩, rfl, rfl, ?_, rfl, rfl, rfl⟩,
    ⟨_, _, rfl, ⟨witness_liveSt_legal.enc, witness_liveSt_legal.dec⟩, ?_, ?_, rfl, rfl, rfl⟩⟩ <;> decide

theorem witness_EnginesAreIndependent :
    (isEncoderCommand (.encByte 0) = true ∧ (encSt 1 1).enc = liveSt.enc) ∧
    (isDecoderCommand .decEnd = true ∧ (runSt 0x7F 7 0xAA 3).dec = liveSt.dec) := by decide

theorem witness_CommandsWriteOnlyTheirOwn :
    (∃ t, exec .nop liveSt = .next t) ∧ (∃ t, exec (.encByte 1) liveSt = .next t) ∧ (∃ t, exec .encEnd liveSt = .next t) ∧
    (∃ t, exec .encClear liveSt = .next t) ∧ (∃ t, exec (.decCp 0x8000) liveSt = .next t) ∧
    (∃ t, exec .decEnd liveSt = .next t) ∧ ∃ t, exec .decClear liveSt = .next t :=
  ⟨⟨_, rfl⟩, ⟨_, rfl⟩, ⟨_, rfl⟩, ⟨_, rfl⟩, ⟨_, rfl⟩, ⟨_, rfl⟩, ⟨_, rfl⟩⟩

theorem witness_CommandsPresentedTwice :
    (∃ e, decode 0x70000000 = .error e) ∧ liveSt.dec.state = .run ∧ classify 0x4000 = .data 0x2000 ∧
    classify 0xCFFF = .data 0x4FFF ∧ opcodeMap.length = 7 ∧
    ∃ t u, exec .encEnd (encSt 0x0000 8) = .next t ∧ t.encOut = [0x8000, 0x0069] ∧ exec .encEnd t = .next u ∧ u = t :=
  ⟨⟨_, rfl⟩, rfl, by decide, by decide, rfl, _, _, rfl, by decide, rfl, rfl⟩

theorem witness_EncoderAndDecoderCommandsCommute :
    isEncoderCommand .encEnd = true ∧ isDecoderCommand (.decCp 0x8000) = true := by decide

theorem witness_IllegalIsSticky :
    (∃ t, performWord 0x00000000 liveSt = .next t) ∧ (∃ t, performWord 0x70000000 liveSt = .next t) ∧
    ∃ t, exec .encEnd liveSt = .next t := ⟨⟨_, rfl⟩, ⟨_, rfl⟩, ⟨_, rfl⟩⟩

theorem witness_StreamsAreAppendOnly : ∃ t, exec .encEnd liveSt = .next t ∧ t.encOut.length = 3 := ⟨_, rfl, by decide⟩

/-- A two-byte stream with an illegal word, a NOP and a decoder command between (95_test_vectors.md P2). -/
theorem witness_EncoderImplementsEncode :
    State.reset.enc = EncEngine.reset ∧
    [0x10000012, 0x00000000, 0x70000000, 0x10000034, 0x40008000, 0x20000000].filter isEncoderWord =
      encoderStreamWords [0x12, 0x34] := by decide

theorem witness_EncoderEmitsPrefixes : (runSt 0x7F 7 0xAA 3).enc = EncEngine.reset := rfl

theorem witness_DecoderCountsDataCodePoints : (encSt 1 1).dec = DecEngine.reset := rfl

/-- A stream that decodes, and one that fails, with other words between. -/
theorem witness_DecoderImplementsDecode :
    (encSt 1 1).dec = DecEngine.reset ∧ ([0x8000, 0x69] : List CodePoint).length < 2 ^ 32 ∧
    [0x40008000, 0x00000000, 0x40000069, 0x70000000, 0x50000000].filter isDecoderWord = decoderStreamWords [0x8000, 0x69] ∧
    (decodeStream [0x8000, 0x69]).toOption = some [0x00] ∧
    [0x4000A000, 0x20000000, 0x50000000].filter isDecoderWord = decoderStreamWords [0xA000] ∧
    (decodeStream [0xA000]).toOption = none := by decide

theorem witness_RoundTripOfEveryByteSequence :
    State.reset.enc = EncEngine.reset ∧ State.reset.dec = DecEngine.reset := ⟨rfl, rfl⟩

theorem witness_EmptyInputGivesEmptyOutput :
    (runSt 0x7F 7 0xAA 3).enc = EncEngine.reset ∧ (encSt 1 1).dec = DecEngine.reset := ⟨rfl, rfl⟩

theorem witness_MarkerOfEveryLength : ([0x00] : List Byte).length % 15 ≠ 0 ∧ (List.replicate 14 (0 : Byte)).length % 15 ≠ 0 := by
  decide

theorem witness_LengthPredictorsAgree : decodeStream [0x8000, 0x71] = .ok [] ∧ decodeStream [0x7FFF] = .ok [0xFF] := ⟨rfl, rfl⟩

theorem witness_Utf8ParseInvertsUtf8Enc :
    ([0x0, 0x7F, 0x80, 0x7FF, 0x800, 0xD7FF, 0xE000, 0xFFFF, 0x10000, 0x10FFFF] : List CodePoint).all (fun c =>
      c.toNat ≤ 0x10FFFF ∧ ¬ (0xD800 ≤ c.toNat ∧ c.toNat ≤ 0xDFFF)) := by decide

theorem witness_FailedStreamKeepsReleasedBytes :
    (encSt 1 1).dec = DecEngine.reset ∧ classify 0xA000 = .invalid ∧ classify 0x1FFFFF = .invalid := by decide

theorem witness_DecoderAcceptsUncheckedInput :
    ([0x63, 0x69] : List CodePoint).all (fun cp => 0x63 ≤ cp.toNat ∧ cp.toNat ≤ 0x71 ∧ ¬ 0x6A ≤ cp.toNat) ∧
    ([0x6A, 0x71] : List CodePoint).all (fun cp => 0x6A ≤ cp.toNat ∧ cp.toNat ≤ 0x71) ∧ ([0x0000] : List Symbol) ≠ [] := by decide

end Sys2Proof.Tests
end

section
/-! The state a command leaves, field by field, and what a command keeps of the state: ILLEGAL (10_state.md R37), the
elements of the streams (R41), and what reset leaves (R43). -/

namespace Sys2Proof.Machine

/-! ### The state a command leaves -/

/-- Taking a command's answer apart: the next state is `afterCommand` and no other. -/
theorem exec_eq_next_iff {i : Instr} {s t : State} : exec i s = .next t ↔ t = afterCommand i s := by
  rw [exec_next, Host.Outcome.next.injEq, eq_comm]

@[simp] theorem afterCommand_enc (i : Instr) (s : State) : (afterCommand i s).enc = encAfter i s.enc := rfl
@[simp] theorem afterCommand_dec (i : Instr) (s : State) : (afterCommand i s).dec = decAfter i s.dec := rfl
@[simp] theorem afterCommand_illegal (i : Instr) (s : State) : (afterCommand i s).illegal = s.illegal := rfl
@[simp] theorem afterCommand_encOut (i : Instr) (s : State) :
    (afterCommand i s).encOut = s.encOut ++ encEmits i s.enc := rfl
@[simp] theorem afterCommand_decOut (i : Instr) (s : State) :
    (afterCommand i s).decOut = s.decOut ++ decEmits i s.dec := rfl
@[simp] theorem afterCommand_decResp (i : Instr) (s : State) :
    (afterCommand i s).decResp = s.decResp ++ respEmits i s.dec := rfl
@[simp] theorem afterCommand_hostMoves (i : Instr) (s : State) : (afterCommand i s).hostMoves = s.hostMoves := rfl

/-! ### ILLEGAL -/

/-- No command reads ILLEGAL (10_state.md R37): writing the flag before the command or after it is the same. -/
theorem afterCommand_setIllegal (i : Instr) (s : State) (b : Bool) :
    afterCommand i { s with illegal := b } = { afterCommand i s with illegal := b } := rfl

/-- A command answers the same whatever ILLEGAL holds, and passes the flag on. -/
theorem exec_setIllegal {i : Instr} {s t : State} (b : Bool) (h : exec i s = .next t) :
    exec i { s with illegal := b } = .next { t with illegal := b } := by
  obtain rfl := exec_eq_next_iff.1 h
  exact exec_eq_next_iff.2 (afterCommand_setIllegal i s b).symm

/-- After a word ILLEGAL is set exactly when it was set before or the word is illegal. -/
theorem performWord_illegal_iff {w : CmdWord} {s t : State} (h : performWord w s = .next t) :
    t.illegal = true ↔ s.illegal = true ∨ ∃ e, decode w = .error e := by
  obtain ⟨i, hi, rfl⟩ | ⟨he, rfl⟩ := performWord_cases h
  · simp [hi]
  · simp [he]

/-- Settles O44: a word's effect on the flag by whether it names a command; a command's by `afterCommand_setIllegal`. -/
theorem illegalIsSticky : Obligations.IllegalIsSticky :=
  ⟨fun _ _ _ h => performWord_illegal_iff h, rfl, resetBlock_illegal, fun _ _ _ b h => exec_setIllegal b h⟩

/-! ### The streams -/

/-- A command only appends to the streams: each begins, after it, with the elements it held before. -/
theorem exec_streams_prefix {i : Instr} {s t : State} (h : exec i s = .next t) :
    s.encOut <+: t.encOut ∧ s.decOut <+: t.decOut ∧ s.decResp <+: t.decResp := by
  obtain rfl := exec_eq_next_iff.1 h
  exact ⟨List.prefix_append _ _, List.prefix_append _ _, List.prefix_append _ _⟩

/-- Settles O45: the commands by `exec_streams_prefix`; a drain is the rest of the stream. -/
theorem streamsAreAppendOnly : Obligations.StreamsAreAppendOnly :=
  ⟨⟨rfl, rfl, rfl⟩, fun _ _ _ h => exec_streams_prefix h,
    fun _ _ => ⟨List.take_append_drop _ _, List.take_append_drop _ _, List.take_append_drop _ _⟩⟩

/-! ### Reset -/

/-- The start state is one the reset signal leaves. -/
theorem resetBlock_reset : resetBlock State.reset = State.reset := rfl

/-- Settles O11: both states are left by the reset signal, so the laws of `resetBlock` give every value. -/
theorem resetLeavesResetValues : Obligations.ResetLeavesResetValues := by
  intro s t ht
  obtain ⟨u, rfl⟩ : ∃ u, t = resetBlock u := by
    obtain rfl | rfl := List.mem_pair.1 ht
    · exact ⟨State.reset, resetBlock_reset.symm⟩
    · exact ⟨s, rfl⟩
  simp [EncEngine.reset, DecEngine.reset]

end Sys2Proof.Machine
end

section
/-! What the decoder makes of every word: through the numbers of its fields (30_encoding.md R76), through the encoder and
the opcode map (R74, R75), which words it refuses and how many (R77), and how the block performs a word; and the packed
completion token (R85). -/

namespace Sys2Proof

/-! ### Format N and format B on the number of OPND -/

/-- The operand bits format B leaves unused, OPND[20:8], are 0 when OPND is below 256 (30_encoding.md R72). -/
theorem unusedBits_eq_zero_iff (w : CmdWord) : w.extractLsb' 8 13 = 0 ↔ (opndField w).toNat / 2 ^ 8 = 0 := by
  rw [← BitVec.toNat_inj, BitVec.extractLsb'_toNat, Nat.shiftRight_eq_div_pow, opndField_toNat]
  simp only [BitVec.ofNat_eq_ofNat, BitVec.toNat_ofNat]
  omega

theorem operandByte_eq_ofNat (w : CmdWord) : operandByte w = BitVec.ofNat 8 (opndField w).toNat := by
  apply BitVec.eq_of_toNat_eq
  rw [operandByte_toNat, BitVec.toNat_ofNat, opndField_toNat]
  omega

theorem operandCp_eq_ofNat (w : CmdWord) : operandCp w = BitVec.ofNat 21 (opndField w).toNat :=
  (BitVec.ofNat_toNat 21 (opndField w)).trans (BitVec.setWidth_eq _) |>.symm

theorem decodeN_toOption (i : Instr) (opnd : BitVec 21) :
    (decodeN i opnd).toOption = if opnd.toNat = 0 then some i else none := by
  rw [decodeN, apply_ite Except.toOption]
  exact if_congr BitVec.toNat_inj.symm rfl rfl

theorem decodeB_toOption (w : CmdWord) : (decodeB w).toOption =
    if (opndField w).toNat / 2 ^ 8 = 0 then some (.encByte (BitVec.ofNat 8 (opndField w).toNat)) else none := by
  rw [decodeB, apply_ite Except.toOption, operandByte_eq_ofNat]
  exact if_congr (unusedBits_eq_zero_iff w) rfl rfl

/-- `decode_cmd` (30_encoding.md R76) over the fields as numbers, one line per opcode. -/
theorem decode_toOption (w : CmdWord) : (decode w).toOption =
    if (rsvField w).toNat ≠ 0 then none
    else if (opField w).toNat = 0 ∧ (opndField w).toNat = 0 then some .nop
    else if (opField w).toNat = 1 ∧ (opndField w).toNat / 2 ^ 8 = 0 then
      some (.encByte (BitVec.ofNat 8 (opndField w).toNat))
    else if (opField w).toNat = 2 ∧ (opndField w).toNat = 0 then some .encEnd
    else if (opField w).toNat = 3 ∧ (opndField w).toNat = 0 then some .encClear
    else if (opField w).toNat = 4 then some (.decCp (BitVec.ofNat 21 (opndField w).toNat))
    else if (opField w).toNat = 5 ∧ (opndField w).toNat = 0 then some .decEnd
    else if (opField w).toNat = 6 ∧ (opndField w).toNat = 0 then some .decClear
    else none := by
  have hrsv : rsvField w ≠ 0 ↔ (rsvField w).toNat ≠ 0 := not_congr BitVec.toNat_inj.symm
  rw [decode, apply_ite Except.toOption]
  refine if_congr hrsv rfl ?_
  generalize (opField w).toNat = op
  match op with
  | 0 | 2 | 3 | 5 | 6 => simp [decodeN_toOption, -opndField_toNat]
  | 1 => simp [decodeB_toOption, -opndField_toNat]
  | 4 => simp [operandCp_eq_ofNat, Except.toOption, -opndField_toNat]
  | n + 7 => simp [Except.toOption]

/-! ### The decoder inverts the encoder -/

theorem decode_eq_ok_iff_toOption {w : CmdWord} {i : Instr} : decode w = .ok i ↔ (decode w).toOption = some i := by
  cases decode w <;> simp [Except.toOption]

/-! The fields of an assembled word are what it was assembled from. -/

@[simp] theorem opField_assembleWord (op : BitVec 4) (opnd : BitVec 21) : opField (assembleWord op opnd) = op := by
  apply BitVec.eq_of_toNat_eq
  rw [opField_toNat, assembleWord_toNat]
  omega

@[simp] theorem rsvField_assembleWord (op : BitVec 4) (opnd : BitVec 21) : rsvField (assembleWord op opnd) = 0 := by
  apply BitVec.eq_of_toNat_eq
  rw [rsvField_toNat, assembleWord_toNat]
  have := opnd.isLt
  simp only [BitVec.ofNat_eq_ofNat, BitVec.toNat_ofNat]
  omega

@[simp] theorem opndField_assembleWord (op : BitVec 4) (opnd : BitVec 21) :
    opndField (assembleWord op opnd) = opnd := by
  apply BitVec.eq_of_toNat_eq
  rw [opndField_toNat, assembleWord_toNat]
  omega

/-- A command's word decodes to the command, with its operand. -/
theorem decode_encode (i : Instr) : decode (encode i) = .ok i := by
  rw [decode_eq_ok_iff_toOption, decode_toOption]
  cases i with
  | encByte b =>
    have hb : (b.setWidth 21).toNat = b.toNat := BitVec.toNat_setWidth_of_le (by omega)
    rw [encode, opField_assembleWord, rsvField_assembleWord, opndField_assembleWord, hb]
    simp [b.isLt]
  | decCp cp =>
    rw [encode, opField_assembleWord, rsvField_assembleWord, opndField_assembleWord]
    simp
  | nop | encEnd | encClear | decEnd | decClear => rfl

/-- A word that decodes to a command is that command's word. -/
theorem encode_of_decode {w : CmdWord} {i : Instr} (h : decode w = .ok i) : encode i = w := by
  have hw := word_eq_fields w
  have ho := (opndField w).isLt
  rw [decode_eq_ok_iff_toOption, decode_toOption] at h
  apply BitVec.eq_of_toNat_eq
  rw [encode_toNat]
  split_ifs at h
  all_goals
    obtain rfl := Option.some.inj h
    simp only [BitVec.toNat_ofNat]
    omega

/-- The words that name a command are the words the encoder gives, each once (30_encoding.md R75). -/
theorem decode_eq_ok_iff {w : CmdWord} {i : Instr} : decode w = .ok i ↔ w = encode i :=
  ⟨fun h => (encode_of_decode h).symm, fun h => h ▸ decode_encode i⟩

theorem encode_injective : Function.Injective encode := fun i j h =>
  Except.ok.inj ((decode_encode i).symm.trans (h ▸ decode_encode j))

/-! ### Match and mask -/

/-- A mask of `m` leading ones selects the words with the leading part `x`, whatever the `n` bits below: the rest of the
word. -/
theorem eq_append_iff_and_mask {m n : Nat} (w : BitVec (m + n)) (x : BitVec m) (y : BitVec n) :
    w = x ++ y ↔ w &&& (BitVec.allOnes m ++ 0#n) = x ++ 0#n ∧ y = w.extractLsb' 0 n := by
  obtain ⟨a, b, rfl⟩ : ∃ (a : BitVec m) (b : BitVec n), w = a ++ b :=
    ⟨_, _, BitVec.extractLsb'_append_extractLsb'.symm⟩
  rw [BitVec.and_append, BitVec.and_allOnes, BitVec.and_zero, BitVec.append_left_inj,
    BitVec.extractLsb'_append_eq_right]
  constructor
  · intro h
    have hlow := congrArg (BitVec.extractLsb' 0 n) h
    have hhigh := congrArg (BitVec.extractLsb' n m) h
    simp only [BitVec.extractLsb'_append_eq_right, BitVec.extractLsb'_append_eq_left] at hlow hhigh
    exact ⟨hhigh, hlow.symm⟩
  · rintro ⟨rfl, rfl⟩
    rfl

/-- A row whose mask is all ones selects one word, its match. -/
theorem decode_eq_ok_iff_fullMask {w : CmdWord} {i : Instr} : decode w = .ok i ↔ w &&& 0xFFFFFFFF#32 = encode i := by
  rw [decode_eq_ok_iff, show 0xFFFFFFFF#32 = BitVec.allOnes 32 from rfl, BitVec.and_allOnes]

theorem encode_encByte (b : Byte) : encode (.encByte b) = 0x100000#24 ++ b := by
  apply BitVec.eq_of_toNat_eq
  rw [encode_toNat, toNat_append_eq]
  rfl

theorem encode_decCp (cp : CodePoint) : encode (.decCp cp) = 0x200#11 ++ cp := by
  apply BitVec.eq_of_toNat_eq
  rw [encode_toNat, toNat_append_eq]
  rfl

theorem decode_eq_encByte_iff (w : CmdWord) (b : Byte) :
    decode w = .ok (.encByte b) ↔ w &&& 0xFFFFFF00#32 = 0x10000000#32 ∧ b = w.extractLsb' 0 8 := by
  rw [decode_eq_ok_iff, encode_encByte]
  exact eq_append_iff_and_mask w 0x100000#24 b

theorem decode_eq_decCp_iff (w : CmdWord) (cp : CodePoint) :
    decode w = .ok (.decCp cp) ↔ w &&& 0xFFE00000#32 = 0x40000000#32 ∧ cp = w.extractLsb' 0 21 := by
  rw [decode_eq_ok_iff, encode_decCp]
  exact eq_append_iff_and_mask w 0x200#11 cp

/-! ### The words the decoder refuses -/

theorem decode_error_iff_not_ok (w : CmdWord) : (∃ e, decode w = .error e) ↔ ¬ ∃ i, decode w = .ok i := by
  cases decode w <;> simp

/-- What can be wrong with the fields of a word (30_encoding.md R77): RSV, a reserved opcode, or an operand bit that
format N or format B leaves unused. -/
theorem not_wellFormed_iff (f : CmdFields) : f.wellFormed = false ↔
    f.rsv ≠ 0 ∨ 7 ≤ f.op.toNat ∨ (f.op.toNat ∈ [0, 2, 3, 5, 6] ∧ f.opnd ≠ 0) ∨
      (f.op.toNat = 1 ∧ 256 ≤ f.opnd.toNat) := by
  by_cases hr : f.rsv = 0
  · rw [CmdFields.wellFormed, formatOf, hr]
    generalize f.op.toNat = op
    match op with
    | 0 | 2 | 3 | 5 | 6 => simp [Format.operandOk]
    | 1 => simp [Format.operandOk]
    | 4 => simp [Format.operandOk]
    | n + 7 => simp
  · have hb : (f.rsv == 0) = false := beq_eq_false_iff_ne.2 hr
    rw [CmdFields.wellFormed, hb, Bool.false_and]
    exact iff_of_true rfl (.inl hr)

/-- The illegal words (30_encoding.md R77), by the fields. -/
theorem decode_error_iff (w : CmdWord) : (∃ e, decode w = .error e) ↔
    rsvField w ≠ 0 ∨ 7 ≤ (opField w).toNat ∨ ((opField w).toNat ∈ [0, 2, 3, 5, 6] ∧ opndField w ≠ 0) ∨
      ((opField w).toNat = 1 ∧ w.extractLsb' 8 13 ≠ 0) := by
  have hunused : w.extractLsb' 8 13 ≠ 0 ↔ 256 ≤ (opndField w).toNat := by
    rw [ne_eq, unusedBits_eq_zero_iff]
    omega
  rw [decode_error_iff_not_ok, decode_isOk_iff, Bool.not_eq_true, hunused]
  exact not_wellFormed_iff (fieldsOf w)

/-! ### How many words name a command -/

theorem natCard_bitVec (n : Nat) : Nat.card (BitVec n) = 2 ^ n := by
  rw [Nat.card_congr BitVec.equivFin.toEquiv, Nat.card_fin]

/-- A command is its row of the opcode map and its operand. -/
def instrEquiv : Instr ≃ Unit ⊕ Byte ⊕ Unit ⊕ Unit ⊕ CodePoint ⊕ Unit ⊕ Unit where
  toFun
    | .nop => .inl ()
    | .encByte b => .inr (.inl b)
    | .encEnd => .inr (.inr (.inl ()))
    | .encClear => .inr (.inr (.inr (.inl ())))
    | .decCp cp => .inr (.inr (.inr (.inr (.inl cp))))
    | .decEnd => .inr (.inr (.inr (.inr (.inr (.inl ())))))
    | .decClear => .inr (.inr (.inr (.inr (.inr (.inr ())))))
  invFun
    | .inl () => .nop
    | .inr (.inl b) => .encByte b
    | .inr (.inr (.inl ())) => .encEnd
    | .inr (.inr (.inr (.inl ()))) => .encClear
    | .inr (.inr (.inr (.inr (.inl cp)))) => .decCp cp
    | .inr (.inr (.inr (.inr (.inr (.inl ()))))) => .decEnd
    | .inr (.inr (.inr (.inr (.inr (.inr ()))))) => .decClear
  left_inv i := by cases i <;> rfl
  right_inv := by rintro (_ | _ | _ | _ | _ | _ | _) <;> rfl

theorem natCard_instr : Nat.card Instr = 1 + 256 + 1 + 1 + 2 ^ 21 + 1 + 1 := by
  rw [Nat.card_congr instrEquiv]
  simp only [Nat.card_sum, Nat.card_unique, natCard_bitVec]
  rfl

/-- The illegal words are those outside the encoder's range. -/
theorem illegalWords_eq_compl_range : { w : CmdWord | ∃ e, decode w = .error e } = (Set.range encode)ᶜ := by
  ext w
  have hok : w ∈ Set.range encode ↔ ∃ i, decode w = .ok i :=
    exists_congr fun i => eq_comm.trans decode_eq_ok_iff.symm
  rw [Set.mem_compl_iff, hok]
  exact decode_error_iff_not_ok w

theorem natCard_illegalWords :
    Nat.card { w : CmdWord // ∃ e, decode w = .error e } = 2 ^ 32 - (1 + 256 + 1 + 1 + 2 ^ 21 + 1 + 1) := by
  calc Nat.card { w : CmdWord // ∃ e, decode w = .error e }
      = Set.ncard { w : CmdWord | ∃ e, decode w = .error e } := Nat.card_coe_set_eq _
    _ = Nat.card CmdWord - Nat.card Instr := by
      rw [illegalWords_eq_compl_range, Set.ncard_compl, Set.ncard_range_of_injective encode_injective]
    _ = 2 ^ 32 - (1 + 256 + 1 + 1 + 2 ^ 21 + 1 + 1) := by rw [natCard_bitVec, natCard_instr]

end Sys2Proof

namespace Sys2Proof.Machine

/-! ### Performing a word -/

theorem performWord_of_ok {w : CmdWord} {i : Instr} (s : State) (h : decode w = .ok i) :
    performWord w s = exec i s := by
  rw [performWord, h]

theorem performWord_of_error {w : CmdWord} {e : DecodeError} (s : State) (h : decode w = .error e) :
    performWord w s = .next { s with illegal := true } := by
  rw [performWord, h]
  rfl

/-- Settles O2: the fields of `decode_toOption` are these numbers. -/
theorem decodeIsDecodeCmd : Obligations.DecodeIsDecodeCmd := by
  intro w
  refine ⟨?_, fun _ s => performWord_of_ok s, fun _ s => performWord_of_error s⟩
  rw [decode_toOption, opField_toNat, rsvField_toNat, opndField_toNat]

/-- Settles O3: the rows without an operand by their one word, the others by the bits above their operand. -/
theorem opcodeMapSelectsCommands : Obligations.OpcodeMapSelectsCommands := fun w =>
  ⟨decode_eq_ok_iff_fullMask, decode_eq_encByte_iff w, decode_eq_ok_iff_fullMask, decode_eq_ok_iff_fullMask,
    decode_eq_decCp_iff w, decode_eq_ok_iff_fullMask, decode_eq_ok_iff_fullMask,
    fun hop => (decode_error_iff w).2 (.inr (.inl hop))⟩

/-- Settles O4: the words by their fields, the count as the complement of the encoder's range, and no command reads
ILLEGAL. -/
theorem illegalWordsOfTheCommandSet : Obligations.IllegalWordsOfTheCommandSet :=
  ⟨decode_error_iff, natCard_illegalWords, fun _ s ⟨_, he⟩ => performWord_of_error s he,
    fun _ _ _ h => exec_setIllegal true h⟩

/-! ### The packed token -/

/-- Every error token packs its kind's code, its code point from bit 8 and its position from bit 32
(30_encoding.md R85). -/
theorem packToken_err_toNat (kind : ErrKind) (pos : Pos) (cp : CodePoint) :
    (packToken (.err kind pos cp)).toNat = (errKindCode kind).toNat + 2 ^ 8 * cp.toNat + 2 ^ 32 * pos.toNat := by
  rw [packToken]
  simp only [toNat_append_eq, BitVec.ofNat_eq_ofNat, BitVec.toNat_ofNat]
  omega

/-- Settles O47: OK is the zero word, and the two kinds pack the codes 1 and 2. -/
theorem packedTokenFields : Obligations.PackedTokenFields :=
  ⟨rfl, fun pos cp => ⟨packToken_err_toNat .invalidLane pos cp, packToken_err_toNat .misplacedOrInvalidPadding pos cp⟩⟩

end Sys2Proof.Machine
end

section
/-! The lane-tag functions as the tables print them: LANE_ENC and CLASSIFY on the quotient and the remainder by 2^12
(40_tag_functions.md R100, R103), and the padding-shaped code points with their deficit candidates (R106, R107). -/

namespace Sys2Proof.Machine

/-! ### LANE_ENC -/

theorem topBits_toNat (s : Symbol) : (s.extractLsb' 12 3).toNat = s.toNat / 2 ^ 12 := by
  have := s.isLt
  rw [BitVec.extractLsb'_toNat, Nat.shiftRight_eq_div_pow]
  omega

/-- Settles O30: the number of a data code point, with LANE_PREFIX as its table. -/
theorem laneEncIsPrefixMux : Obligations.LaneEncIsPrefixMux := by
  intro s
  rw [laneEnc_toNat, lanePrefix_toNat, topBits_toNat]
  simp only [Nat.reducePow]

/-! ### CLASSIFY -/

/-- The symbol of a data code point: the nibble's top-3 value over the low 12 bits. -/
theorem append_lowBits_eq_ofNat (t : BitVec 3) (cp : CodePoint) :
    t ++ cp.extractLsb' 0 12 = BitVec.ofNat 15 (t.toNat * 4096 + cp.toNat % 4096) := by
  have := t.isLt
  apply BitVec.eq_of_toNat_eq
  rw [toNat_append_eq, BitVec.extractLsb'_toNat, BitVec.toNat_ofNat, Nat.shiftRight_zero]
  omega

/-- What an entry of NIBBLE_CLASS makes of a code point (40_tag_functions.md R103). -/
def nibbleTag (cp : CodePoint) : NibbleClass → Tag
  | .data t => .data (BitVec.ofNat 15 (t.toNat * 4096 + cp.toNat % 4096))
  | .pad => .pad ((cp.toNat : Int) - 0x62)
  | .invalid => .invalid

/-- CLASSIFY looks NIBBLE_CLASS up at the quotient by 2^12; the code points above U+FFFF are those past its end. -/
theorem classify_eq_nibbleTag (cp : CodePoint) :
    classify cp = nibbleTag cp (nibbleClassRom.getD (cp.toNat / 4096) .invalid) := by
  rw [classify_eq]
  by_cases habove : 0x10000 ≤ cp.toNat
  · have hend : nibbleClassRom.length ≤ cp.toNat / 4096 := by
      rw [show nibbleClassRom.length = 16 from rfl]
      omega
    rw [if_pos habove, List.getD_eq_default _ _ hend]
    rfl
  · have hnibble : (cp.extractLsb' 12 4).toNat = cp.toNat / 4096 := by
      rw [nibble_toNat]
      omega
    rw [if_neg habove, ← hnibble, ← nibbleClass]
    cases nibbleClass (cp.extractLsb' 12 4) with
    | data t => exact congrArg Tag.data (append_lowBits_eq_ofNat t cp)
    | pad => rfl
    | invalid => rfl

/-- Settles O32: the sixteen entries of NIBBLE_CLASS, and the quotients past its end. -/
theorem classifyByNibble : Obligations.ClassifyByNibble := by
  intro cp
  rw [classify_eq_nibbleTag]
  generalize cp.toNat / 4096 = n
  match n with
  | 0 => rfl
  | 4 | 5 | 6 | 7 | 8 | 9 | 11 | 12 => rfl
  | 1 | 2 | 3 | 10 | 13 | 14 | 15 => rfl
  | n + 16 => rfl

/-! ### Padding-shaped code points -/

theorem nibbleTag_eq_pad_iff (cp : CodePoint) (c : NibbleClass) (d : Int) :
    nibbleTag cp c = .pad d ↔ c = .pad ∧ d = (cp.toNat : Int) - 0x62 := by
  cases c <;> simp [nibbleTag, eq_comm]

/-- NIBBLE_CLASS holds PAD at index 0 alone (10_state.md R26). -/
theorem nibbleClassRom_getD_eq_pad_iff (n : Nat) : nibbleClassRom.getD n .invalid = .pad ↔ n = 0 := by
  by_cases hn : n < 16
  · exact (nibbleClass_eq_pad (BitVec.ofNatLT n hn)).trans BitVec.toNat_inj.symm
  · rw [List.getD_eq_default _ _ (Nat.le_of_not_lt hn)]
    exact iff_of_false NibbleClass.noConfusion (by omega)

/-- The padding-shaped code points and their deficit candidates (40_tag_functions.md R106). -/
theorem classify_eq_pad_iff (cp : CodePoint) (d : Int) :
    classify cp = .pad d ↔ cp.toNat ≤ 0xFFF ∧ d = (cp.toNat : Int) - 0x62 := by
  rw [classify_eq_nibbleTag, nibbleTag_eq_pad_iff, nibbleClassRom_getD_eq_pad_iff]
  omega

/-- MARKER_VALID's range (40_tag_functions.md R107). -/
theorem markerValid_iff (d : Int) : markerValid d = true ↔ 1 ≤ d ∧ d ≤ 15 := by
  simp [markerValid]

/-- Settles O34: every clause is arithmetic on the deficit candidate that `classify_eq_pad_iff` gives. -/
theorem paddingShapedAndValidMarkers : Obligations.PaddingShapedAndValidMarkers := by
  refine ⟨classify_eq_pad_iff, fun cp d h => ?_, fun cp d h => ⟨markerValid_iff d, ?_⟩⟩
  · obtain ⟨hcp, rfl⟩ := (classify_eq_pad_iff cp d).1 h
    omega
  · obtain ⟨-, rfl⟩ := (classify_eq_pad_iff cp d).1 h
    rw [markerValid_iff]
    omega

end Sys2Proof.Machine
end

section
/-! The encoder commands ENC_BYTE, ENC_END and ENC_CLEAR with the whole next state (41_encoder.md R120 to R122), the empty
stream in both directions (R126, 42_decoder.md R159), and the code units of an encoding: when it ends in a marker
(41_encoder.md R128). -/

namespace Sys2Proof.Machine

/-! ### What a command of one engine leaves unchanged -/

/-- An encoder command writes the encoder engine and ENC_OUT, and nothing else. -/
theorem exec_of_isEncoderCommand {i : Instr} (hi : isEncoderCommand i = true) (s : State) : exec i s = .next
    { s with enc := encAfter i s.enc, encOut := s.encOut ++ encEmits i s.enc } := by
  rw [exec_eq]
  cases i with
  | encByte b | encEnd | encClear => simp only [decAfter, decEmits, respEmits, List.append_nil]
  | nop | decCp cp | decEnd | decClear => cases hi

/-- A decoder command writes the decoder engine, DEC_OUT and DEC_RESP, and nothing else. -/
theorem exec_of_isDecoderCommand {i : Instr} (hi : isDecoderCommand i = true) (s : State) : exec i s = .next
    { s with dec := decAfter i s.dec, decOut := s.decOut ++ decEmits i s.dec,
             decResp := s.decResp ++ respEmits i s.dec } := by
  rw [exec_eq]
  cases i with
  | decCp cp | decEnd | decClear => simp only [encAfter, encEmits, List.append_nil]
  | nop | encByte b | encEnd | encClear => cases hi

/-! ### ENC_BYTE -/

/-- The word of ENC_BYTE is its match with the operand byte in the low bits (30_encoding.md R75). -/
theorem encode_encByte_eq_or (b : Byte) : encode (.encByte b) = 0x10000000#32 ||| b.setWidth 32 := by
  have hb : b.setWidth 32 = 0#24 ++ b := BitVec.setWidth_eq_append (by decide)
  calc encode (.encByte b)
      = 0x100000#24 ++ b := encode_encByte b
    _ = (0x100000#24 ||| 0#24) ++ (0#8 ||| b) := by rw [BitVec.or_zero, BitVec.zero_or]
    _ = (0x100000#24 ++ 0#8) ||| (0#24 ++ b) := BitVec.or_append.symm
    _ = 0x10000000#32 ||| b.setWidth 32 := by rw [hb]; rfl

/-- Settles O16: the two cases of the count, each with the slices of the joined bits. -/
theorem encByteResult : Obligations.EncByteResult := by
  intro b s
  refine ⟨decode_eq_ok_iff.2 (encode_encByte_eq_or b).symm, ?_⟩
  rw [exec_of_isEncoderCommand rfl]
  by_cases hc : 15 ≤ s.enc.cnt.toNat + 8
  · simp only [encAfter, encEmits, if_pos hc]
    rfl
  · simp only [encAfter, encEmits, if_neg hc, List.append_nil]
    rfl

/-! ### ENC_END and ENC_CLEAR -/

/-- ENC_END emits when a bit is pending: the final partial symbol and its marker, BASE_CHAR and the deficit on numbers
(41_encoder.md R121, 40_tag_functions.md R108). -/
theorem encEmits_encEnd (e : EncEngine) : encEmits .encEnd e =
    if e.cnt.toNat ≠ 0 then [laneEnc (e.acc.setWidth 15), BitVec.ofNat 16 (0x62 + (15 - e.cnt.toNat))] else [] :=
  if_congr (not_congr BitVec.toNat_inj.symm) rfl rfl

/-- Settles O18: the engine is cleared, and `encEmits_encEnd` gives what leaves on ENC_OUT. -/
theorem encEndResult : Obligations.EncEndResult :=
  ⟨rfl, fun s => by rw [exec_of_isEncoderCommand rfl, encEmits_encEnd]; rfl⟩

/-- Settles O19: the engine is cleared, and the list of what it emits is empty. -/
theorem encClearResult : Obligations.EncClearResult :=
  ⟨rfl, fun s => by rw [exec_of_isEncoderCommand rfl, encEmits, List.append_nil]; rfl⟩

/-! ### The empty stream -/

/-- A cleared encoder has no bit pending, so ENC_END changes nothing. -/
theorem exec_encEnd_of_reset {s : State} (hs : s.enc = EncEngine.reset) : exec .encEnd s = .next s := by
  have hemit : encEmits .encEnd s.enc = [] := by rw [hs]; rfl
  have hafter : encAfter .encEnd s.enc = s.enc := hs.symm
  rw [exec_of_isEncoderCommand rfl, hemit, hafter, List.append_nil]

/-- A cleared decoder holds no byte and no error, so DEC_END reports OK and changes nothing else. -/
theorem exec_decEnd_of_reset {s : State} (hs : s.dec = DecEngine.reset) :
    exec .decEnd s = .next { s with decResp := s.decResp ++ [.ok] } := by
  have hemit : decEmits .decEnd s.dec = [] := by rw [hs]; rfl
  have htoken : respEmits .decEnd s.dec = [.ok] := by rw [hs]; rfl
  have hafter : decAfter .decEnd s.dec = s.dec := hs.symm
  rw [exec_of_isDecoderCommand rfl, hemit, htoken, hafter, List.append_nil]

/-- Settles O53: the transforms by evaluation, the commands from a cleared engine. -/
theorem emptyInputGivesEmptyOutput : Obligations.EmptyInputGivesEmptyOutput :=
  ⟨rfl, rfl, fun _ hs => exec_encEnd_of_reset hs, fun _ hs => exec_decEnd_of_reset hs⟩

/-! ### The code units of an encoding -/

theorem isEncoderMarker_iff (c : CodeUnit) : isEncoderMarker c = true ↔ 0x63 ≤ c.toNat ∧ c.toNat ≤ 0x70 := by
  rw [isEncoderMarker, Bool.and_eq_true, decide_eq_true_iff, decide_eq_true_iff]

/-- The least nibble of LANE_PREFIX is 4 (10_state.md R25). -/
theorem four_le_lanePrefix (t : BitVec 3) : 4 ≤ (lanePrefix t).toNat := by
  revert t; decide

/-- A data code point lies above every marker. -/
theorem isEncoderMarker_laneEnc (sym : Symbol) : isEncoderMarker (laneEnc sym) = false := by
  have hprefix := four_le_lanePrefix (sym.extractLsb' 12 3)
  rw [← Bool.not_eq_true, isEncoderMarker_iff, laneEnc_toNat]
  omega

/-- The marker of 1 to 14 data bits is one the encoder emits (40_tag_functions.md R108, 30_encoding.md R83). -/
theorem isEncoderMarker_marker {c : Nat} (hpos : 1 ≤ c) (hle : c ≤ 14) : isEncoderMarker (marker c) = true := by
  rw [isEncoderMarker_iff, marker, baseChar, BitVec.toNat_ofNat]
  omega

/-- An encoding holds no marker exactly when every symbol is full: its data code points are none, and a partial symbol brings
one. -/
theorem encodeStream_no_marker_iff (bytes : List Byte) :
    (∀ c ∈ encodeStream bytes, isEncoderMarker c = false) ↔ 8 * bytes.length % 15 = 0 := by
  have hdata : ∀ c ∈ (List.range (symbolCount bytes.length)).map (fun k => laneEnc (symbolAt bytes k)),
      isEncoderMarker c = false :=
    List.forall_mem_map.2 fun k _ => isEncoderMarker_laneEnc (symbolAt bytes k)
  rw [encodeStream, List.forall_mem_append, and_iff_right hdata]
  by_cases hexact : 8 * bytes.length % 15 = 0
  · simp [hexact]
  · have hmarker : isEncoderMarker (marker (8 * bytes.length % 15)) = true :=
      isEncoderMarker_marker (by omega) (by omega)
    simp [hexact, hmarker]

/-- Settles O54: 8 and 15 have no common divisor, and `encodeStream_no_marker_iff`. -/
theorem noMarkerExactlyWhenExact : Obligations.NoMarkerExactlyWhenExact := fun bytes =>
  ⟨by omega, encodeStream_no_marker_iff bytes⟩

end Sys2Proof.Machine
end

section
/-! The decoder commands DEC_CP, DEC_END and DEC_CLEAR with the whole next state (42_decoder.md R150 to R155). -/

namespace Sys2Proof.Machine

/-! ### DEC_CP -/

/-- The word of DEC_CP is its match with the code point in the low bits (30_encoding.md R75). -/
theorem encode_decCp_eq_or (cp : CodePoint) : encode (.decCp cp) = 0x40000000#32 ||| cp.setWidth 32 := by
  have hcp : cp.setWidth 32 = 0#11 ++ cp := BitVec.setWidth_eq_append (by decide)
  calc encode (.decCp cp)
      = (0x200#11 ||| 0#11) ++ (0#21 ||| cp) := by rw [encode_decCp, BitVec.or_zero, BitVec.zero_or]
    _ = (0x200#11 ++ 0#21) ||| (0#11 ++ cp) := BitVec.or_append.symm
    _ = 0x40000000#32 ||| cp.setWidth 32 := by rw [hcp]; rfl

/-- A code point after an error has no effect (60_exceptions.md R225). -/
theorem exec_decCp_of_error {s : State} (hs : s.dec.state = .error) (cp : CodePoint) :
    exec (.decCp cp) s = .next s := by
  simp only [exec, execDecCp, hs]

/-- A code point after a marker raises the marker's error (42_decoder.md R152). -/
theorem exec_decCp_of_padded {s : State} (hs : s.dec.state = .padded) (cp : CodePoint) :
    exec (.decCp cp) s =
      .next { s with dec := raisedDec .misplacedOrInvalidPadding s.dec.markPos (markerCp s.dec.markD) s.dec } := by
  simp only [exec, execDecCp, hs]
  rfl

/-- A code point in RUN state is taken by its class (42_decoder.md R150). -/
theorem exec_decCp_of_run {s : State} (hs : s.dec.state = .run) (cp : CodePoint) : exec (.decCp cp) s =
    .next { s with dec := runDec cp s.dec, decOut := s.decOut ++ runBytes cp s.dec } := by
  simp only [exec, execDecCp, hs, takeInRun_eq]

/-- Settles O23: the marker's code point in `exec_decCp_of_padded` is BASE_CHAR and the recorded deficit on numbers. -/
theorem decCpAfterMarkerAndAfterError : Obligations.DecCpAfterMarkerAndAfterError := fun cp _ =>
  ⟨fun hs => exec_decCp_of_padded hs cp, fun hs => exec_decCp_of_error hs cp⟩

/-! What a code point in RUN state does, class by class. -/

theorem runDec_of_invalid {cp : CodePoint} (hcp : classify cp = .invalid) (d : DecEngine) :
    runDec cp d = raisedDec .invalidLane d.pos cp d := by
  rw [runDec, hcp]

theorem runBytes_of_invalid {cp : CodePoint} (hcp : classify cp = .invalid) (d : DecEngine) : runBytes cp d = [] := by
  rw [runBytes, hcp]

theorem runDec_of_data {cp : CodePoint} {sym : Symbol} (hcp : classify cp = .data sym) (d : DecEngine) :
    runDec cp d = dataDec sym d := by
  rw [runDec, hcp]

theorem runBytes_of_data {cp : CodePoint} {sym : Symbol} (hcp : classify cp = .data sym) (d : DecEngine) :
    runBytes cp d = dataBytes sym d := by
  rw [runBytes, hcp]

theorem runDec_of_pad {cp : CodePoint} {k : Int} (hcp : classify cp = .pad k) (d : DecEngine) : runDec cp d =
    if padRefused k d then raisedDec .misplacedOrInvalidPadding d.pos cp d else paddedDec k d := by
  rw [runDec, hcp]

theorem runBytes_of_pad {cp : CodePoint} {k : Int} (hcp : classify cp = .pad k) (d : DecEngine) : runBytes cp d =
    if padRefused k d || padTrim k then [] else heldBytes d := by
  rw [runBytes, hcp]

theorem padTrim_iff (k : Int) : padTrim k = true ↔ 8 ≤ k := by
  simp [padTrim]

/-- A marker is refused for its deficit, or for having nothing to trim (42_decoder.md R150). -/
theorem padRefused_iff (k : Int) (d : DecEngine) :
    padRefused k d = true ↔ ¬ (1 ≤ k ∧ k ≤ 15) ∨ (8 ≤ k ∧ d.holdV = false) := by
  simp [padRefused, ← markerValid_iff, ← padTrim_iff]

/-- A deficit that is not negative is cut to DEC_MARK_D's four bits as a natural number. -/
theorem ofInt_eq_ofNat_toNat {k : Int} (hk : 0 ≤ k) : BitVec.ofInt 4 k = BitVec.ofNat 4 k.toNat := by
  rw [← BitVec.ofInt_natCast, Int.toNat_of_nonneg hk]

/-- DEC_CP of a refused marker raises the error at its own position (42_decoder.md R150). -/
theorem exec_decCp_of_refused {s : State} {cp : CodePoint} {k : Int} (hs : s.dec.state = .run)
    (hcp : classify cp = .pad k) (hk : padRefused k s.dec = true) : exec (.decCp cp) s =
      .next { s with dec := raisedDec .misplacedOrInvalidPadding s.dec.pos cp s.dec } := by
  rw [exec_decCp_of_run hs, runDec_of_pad hcp, runBytes_of_pad hcp, if_pos hk, hk, Bool.true_or, if_pos rfl,
    List.append_nil]

/-- DEC_CP of an accepted marker: the held byte leaves, or is trimmed (42_decoder.md R151). -/
theorem exec_decCp_of_accepted {s : State} {cp : CodePoint} {k : Int} (hs : s.dec.state = .run)
    (hcp : classify cp = .pad k) (hk : padRefused k s.dec = false) : exec (.decCp cp) s =
      .next { s with dec := paddedDec k s.dec, decOut := s.decOut ++ if padTrim k then [] else heldBytes s.dec } := by
  rw [exec_decCp_of_run hs, runDec_of_pad hcp, runBytes_of_pad hcp, hk, Bool.false_or]
  rfl

/-- A padding-shaped code point in RUN state, by its deficit and the held byte (42_decoder.md R150). -/
theorem exec_decCp_of_pad {s : State} {cp : CodePoint} {k : Int} (hs : s.dec.state = .run) (hcp : classify cp = .pad k) :
    exec (.decCp cp) s = .next
      (if ¬ (1 ≤ k ∧ k ≤ 15) ∨ (8 ≤ k ∧ s.dec.holdV = false) then
        { s with dec := raisedDec .misplacedOrInvalidPadding s.dec.pos cp s.dec }
      else
        { s with dec := { s.dec with hold := 0, holdV := false, acc := 0, cnt := 0, markPos := s.dec.pos,
                                     markD := BitVec.ofNat 4 k.toNat, state := .padded, pos := s.dec.pos + 1 }
                 decOut := s.decOut ++ if 8 ≤ k then [] else heldBytes s.dec }) := by
  cases hk : padRefused k s.dec with
  | true => rw [exec_decCp_of_refused hs hcp hk, if_pos ((padRefused_iff k s.dec).1 hk)]
  | false =>
    have haccepted := (padRefused_iff k s.dec).not.1 (Bool.eq_false_iff.1 hk)
    rw [exec_decCp_of_accepted hs hcp hk, if_neg haccepted, paddedDec, ofInt_eq_ofNat_toNat (by omega)]
    simp only [padTrim_iff]

/-- Settles O20: the two states that take no code point, then the three classes in RUN state. -/
theorem decCpResult : Obligations.DecCpResult := by
  intro cp s
  refine ⟨decode_eq_ok_iff.2 (encode_decCp_eq_or cp).symm, ?_⟩
  dsimp only
  cases hs : s.dec.state with
  | error => exact exec_decCp_of_error hs cp
  | padded => exact exec_decCp_of_padded hs cp
  | run =>
    cases hcp : classify cp with
    | invalid =>
      rw [exec_decCp_of_run hs, runDec_of_invalid hcp, runBytes_of_invalid hcp, List.append_nil]
      rfl
    | pad k =>
      rw [exec_decCp_of_pad hs hcp, ite_or]
      rfl
    | data sym =>
      rw [exec_decCp_of_run hs, runDec_of_data hcp, runBytes_of_data hcp, dataDec, dataBytes]
      by_cases hcnt : 16 ≤ s.dec.cnt.toNat + 15
      · simp only [if_pos hcnt, ← List.append_assoc, hs]
        rfl
      · simp only [if_neg hcnt, List.append_nil, hs]
        rfl

/-! ### DEC_END and DEC_CLEAR -/

/-- Settles O28: the engine is cleared, and the held byte leaves when it is there and the state is RUN. -/
theorem decEndResult : Obligations.DecEndResult :=
  ⟨rfl, fun s => by rw [exec_of_isDecoderCommand rfl, ite_and]; rfl⟩

/-- Settles O29: the engine is cleared, and the lists of what it emits are empty. -/
theorem decClearResult : Obligations.DecClearResult :=
  ⟨rfl, fun s => by rw [exec_of_isDecoderCommand rfl, decEmits, respEmits, List.append_nil, List.append_nil]; rfl⟩

end Sys2Proof.Machine
end

section
/-! Bit streams as numbers (20_memory.md R50, R51): the bytes and the symbols of a stream are the slices of its number, and
ENCODE and DECODE (41_encoder.md R125, 42_decoder.md R156) are a case each on that number. With that, DECODE inverts ENCODE
(42_decoder.md R158). -/

namespace Sys2Proof.Machine

/-! ### The slices of a number -/

theorem slice_add (v lo hi w : Nat) : slice v (lo + hi) w = slice (v / 2 ^ lo) hi w := by
  rw [slice, slice, Nat.shiftRight_add, Nat.shiftRight_eq_div_pow v]

/-- Bits above a slice are not part of it. -/
theorem slice_add_mul_pow {lo w j : Nat} (h : lo + w ≤ j) (v x : Nat) :
    slice (v + x * 2 ^ j) lo w = slice v lo w := by
  apply BitVec.eq_of_toNat_eq
  have hj : x * 2 ^ j = 2 ^ lo * (x * 2 ^ (j - (lo + w)) * 2 ^ w) := by
    rw [← Nat.add_sub_of_le h, Nat.add_sub_cancel_left, Nat.pow_add, Nat.pow_add]
    ring
  rw [slice_toNat, slice_toNat, hj, Nat.add_mul_div_left _ _ (Nat.two_pow_pos lo), Nat.add_mul_mod_self_right]

/-- The lowest `n` slices of `w` bits of a number, lowest first. -/
def chunks (w v n : Nat) : List (BitVec w) := (List.range n).map fun k => slice v (w * k) w

@[simp] theorem chunks_zero (w v : Nat) : chunks w v 0 = [] := rfl

theorem chunks_add (w v m n : Nat) : chunks w v (m + n) = chunks w v m ++ chunks w (v / 2 ^ (w * m)) n := by
  simp only [chunks, List.range_add, List.map_append, List.map_map, Function.comp_def, Nat.mul_add, slice_add]

/-- The lowest slice first. -/
theorem chunks_succ (w v n : Nat) : chunks w v (n + 1) = slice v 0 w :: chunks w (v / 2 ^ w) n := by
  rw [Nat.add_comm, chunks_add, Nat.mul_one]
  rfl

/-- The highest slice last. -/
theorem chunks_succ_last (w v n : Nat) : chunks w v (n + 1) = chunks w v n ++ [slice v (w * n) w] := by
  rw [chunks, List.range_succ, List.map_append]
  rfl

/-- Bits above the slices are not part of them. -/
theorem chunks_add_mul_pow {w n j : Nat} (h : w * n ≤ j) (v x : Nat) : chunks w (v + x * 2 ^ j) n = chunks w v n := by
  refine List.map_congr_left fun k hk => slice_add_mul_pow ?_ v x
  calc w * k + w = w * (k + 1) := rfl
    _ ≤ w * n := Nat.mul_le_mul_left w (List.mem_range.1 hk)
    _ ≤ j := h

/-! ### The number of a byte stream -/

theorem streamValue_lt (bytes : List Byte) : streamValue bytes < 2 ^ (8 * bytes.length) := by
  induction bytes with
  | nil => exact Nat.one_pos
  | cons b bs ih =>
    have hb := b.isLt
    rw [streamValue, List.length_cons, Nat.mul_succ, Nat.pow_add]
    omega

/-- The bytes of a stream are the slices of its number. -/
theorem chunks_streamValue (bytes : List Byte) : chunks 8 (streamValue bytes) bytes.length = bytes := by
  induction bytes with
  | nil => rfl
  | cons b bs ih =>
    have hb := b.isLt
    have hlow : slice (streamValue (b :: bs)) 0 8 = b := by
      apply BitVec.eq_of_toNat_eq
      rw [slice_toNat, streamValue]
      omega
    have hrest : streamValue (b :: bs) / 2 ^ 8 = streamValue bs := by
      rw [streamValue]
      omega
    rw [List.length_cons, chunks_succ, hlow, hrest, ih]

/-! ### ENCODE on the number -/

/-- The code units of `len` bits: a data code point for each 15 bits, and a marker for a partial symbol. -/
def unitsOf (v len : Nat) : List CodeUnit :=
  (chunks 15 v ((len + 14) / 15)).map laneEnc ++ if len % 15 ≠ 0 then [marker (len % 15)] else []

theorem encodeStream_eq_unitsOf (bytes : List Byte) :
    encodeStream bytes = unitsOf (streamValue bytes) (8 * bytes.length) := by
  rw [encodeStream, unitsOf, chunks, List.map_map]
  rfl

theorem unitsOf_zero (v : Nat) : unitsOf v 0 = [] := rfl

/-- A partial symbol is its data code point and its marker. -/
theorem unitsOf_of_lt {len : Nat} (hpos : 0 < len) (hlt : len < 15) (v : Nat) :
    unitsOf v len = [laneEnc (slice v 0 15), marker len] := by
  have hcount : (len + 14) / 15 = 0 + 1 := by omega
  rw [unitsOf, hcount, chunks_succ, chunks_zero, Nat.mod_eq_of_lt hlt, if_pos hpos.ne']
  rfl

/-- A full symbol is its data code point, and the rest is the bits above it. -/
theorem unitsOf_of_le {len : Nat} (h : 15 ≤ len) (v : Nat) :
    unitsOf v len = laneEnc (slice v 0 15) :: unitsOf (v / 2 ^ 15) (len - 15) := by
  have hcount : (len + 14) / 15 = (len - 15 + 14) / 15 + 1 := by omega
  rw [unitsOf, unitsOf, hcount, chunks_succ, Nat.mod_eq_sub_mod h]
  rfl

/-! ### DECODE, a code point at a time -/

/-- CLASSIFY reads a symbol back from its data code point (40_tag_functions.md R104). -/
theorem classify_laneEnc (sym : Symbol) : classify ((laneEnc sym).setWidth 21) = .data sym := by
  have hcp : ((laneEnc sym).setWidth 21).toNat = (laneEnc sym).toNat := BitVec.toNat_setWidth_of_le (by decide)
  have hunit := (laneEnc sym).isLt
  have hnibble : ((laneEnc sym).setWidth 21).extractLsb' 12 4 = lanePrefix (sym.extractLsb' 12 3) := by
    apply BitVec.eq_of_toNat_eq
    rw [nibble_toNat, hcp, laneEnc_toNat]
    omega
  have hlow : ((laneEnc sym).setWidth 21).extractLsb' 0 12 = sym.extractLsb' 0 12 := by
    apply BitVec.eq_of_toNat_eq
    rw [BitVec.extractLsb'_toNat, BitVec.extractLsb'_toNat, hcp, laneEnc_toNat, Nat.shiftRight_zero, Nat.shiftRight_zero]
    omega
  rw [classify_eq, if_neg (by omega), hnibble, nibbleClass_lanePrefix, hlow]
  exact congrArg Tag.data BitVec.extractLsb'_append_extractLsb'

/-- The marker of a partial symbol carries its deficit (40_tag_functions.md R106, R108). -/
theorem classify_marker {c : Nat} (hc : c ≤ 15) : classify ((marker c).setWidth 21) = .pad (15 - c) := by
  have hcp : ((marker c).setWidth 21).toNat = 0x62 + (15 - c) := by
    rw [BitVec.toNat_setWidth_of_le (by decide), marker, baseChar, BitVec.toNat_ofNat]
    omega
  rw [classify_eq_pad_iff, hcp]
  omega

/-- The bytes a data symbol completes are slices of the joined bits. -/
theorem symbolBytes_eq_chunks (a cnt : Nat) : symbolBytes a cnt = chunks 8 a ((cnt + 15) / 8) := rfl

theorem decodeFrom_of_invalid {c : CodePoint} (hc : classify c = .invalid) (i acc cnt : Nat) (out : List Byte)
    (rest : List CodePoint) : decodeFrom i acc cnt out (c :: rest) = .error ⟨.invalidLane, i, c⟩ := by
  rw [decodeFrom, hc]

theorem decodeFrom_of_data {c : CodePoint} {sym : Symbol} (hc : classify c = .data sym) (i acc cnt : Nat)
    (out : List Byte) (rest : List CodePoint) : decodeFrom i acc cnt out (c :: rest) =
      decodeFrom (i + 1) (joinBits acc cnt sym.toNat >>> (8 * ((cnt + 15) / 8))) ((cnt + 15) % 8)
        (out ++ symbolBytes (joinBits acc cnt sym.toNat) cnt) rest := by
  rw [decodeFrom, hc]

/-- A marker is accepted when it is the last code point, valid, and not left with nothing to trim. -/
theorem decodeFrom_eq_ok_iff_of_pad {c : CodePoint} {d : Int} (hc : classify c = .pad d) {i acc cnt : Nat}
    {out out' : List Byte} {rest : List CodePoint} : decodeFrom i acc cnt out (c :: rest) = .ok out' ↔
      (rest = [] ∧ markerValid d = true ∧ (padTrim d = true → out ≠ [])) ∧
        out' = if padTrim d then out.dropLast else out := by
  have haccepted : (rest = [] ∧ markerValid d = true ∧ (padTrim d = true → out ≠ [])) ↔
      ¬ (rest ≠ [] ∨ markerValid d = false ∨ (padTrim d = true ∧ out = [])) := by
    rw [not_or, not_or, not_not, not_and, Bool.not_eq_false]
  rw [decodeFrom, hc, haccepted]
  dsimp only
  by_cases hrefused : rest ≠ [] ∨ markerValid d = false ∨ (padTrim d = true ∧ out = [])
  · rw [if_pos hrefused]
    exact iff_of_false nofun fun h => h.1 hrefused
  · rw [if_neg hrefused, and_iff_right hrefused, Except.ok.injEq, eq_comm]

/-! ### DECODE inverts ENCODE -/

/-- The bits left over when every whole byte is taken off `n` bits. -/
theorem shiftRight_bytes_lt {v n : Nat} (h : v < 2 ^ n) : v >>> (8 * (n / 8)) < 2 ^ (n % 8) := by
  rw [Nat.shiftRight_eq_div_pow, Nat.div_lt_iff_lt_mul (Nat.two_pow_pos _), ← Nat.pow_add, Nat.mod_add_div]
  exact h

/-- A symbol on top of the remainder: its whole bytes leave, and its other bits join the symbols above it. -/
theorem chunks_symbol_append {acc cnt v p : Nat} (hp : (cnt + 15) / 8 ≤ p) :
    chunks 8 (acc + v * 2 ^ cnt) p = symbolBytes (acc + v % 2 ^ 15 * 2 ^ cnt) cnt ++
      chunks 8 ((acc + v % 2 ^ 15 * 2 ^ cnt) >>> (8 * ((cnt + 15) / 8)) + v / 2 ^ 15 * 2 ^ ((cnt + 15) % 8))
        (p - (cnt + 15) / 8) := by
  have hsplit : acc + v * 2 ^ cnt = acc + v % 2 ^ 15 * 2 ^ cnt + v / 2 ^ 15 * 2 ^ (cnt + 15) := by
    conv_lhs => rw [← Nat.mod_add_div v (2 ^ 15)]
    ring
  have hpow : v / 2 ^ 15 * 2 ^ (cnt + 15) = 2 ^ (8 * ((cnt + 15) / 8)) * (v / 2 ^ 15 * 2 ^ ((cnt + 15) % 8)) := by
    rw [Nat.mul_left_comm, ← Nat.pow_add, Nat.div_add_mod]
  conv_lhs => rw [← Nat.add_sub_of_le hp, chunks_add, hsplit]
  rw [chunks_add_mul_pow (Nat.mul_div_le _ _), hpow, Nat.add_mul_div_left _ _ (Nat.two_pow_pos _),
    ← Nat.shiftRight_eq_div_pow, symbolBytes_eq_chunks]

/-- DECODE's loop on a partial symbol and its marker, above a remainder that its `len` bits complete to `p` bytes: a whole
byte of filling is trimmed, and less than one is part of no byte. -/
theorem decodeFrom_unitsOf_of_lt {len v acc cnt p : Nat} (hpos : 0 < len) (hlen : len < 15) (hacc : acc < 2 ^ cnt)
    (hv : v < 2 ^ len) (hp : cnt + len = 8 * p) (i : Nat) (out : List Byte) :
    decodeFrom i acc cnt out ((unitsOf v len).map (·.setWidth 21)) = .ok (out ++ chunks 8 (acc + v * 2 ^ cnt) p) := by
  have hfits : 2 ^ len ≤ 2 ^ 15 := Nat.pow_le_pow_right (by decide) (by omega)
  have hsym : (slice v 0 15).toNat = v := by
    rw [slice_toNat, Nat.pow_zero, Nat.div_one, Nat.mod_eq_of_lt (by omega)]
  have hvalid : markerValid (15 - len) = true := (markerValid_iff _).2 (by omega)
  rw [unitsOf_of_lt hpos hlen, List.map_cons, List.map_cons, List.map_nil, decodeFrom_of_data (classify_laneEnc _),
    decodeFrom_eq_ok_iff_of_pad (classify_marker (by omega)), hsym, joinBits_eq hacc, symbolBytes_eq_chunks]
  by_cases htrim : padTrim (15 - len) = true
  · have hbytes : (cnt + 15) / 8 = p + 1 := by
      rw [padTrim_iff] at htrim
      omega
    rw [hbytes, chunks_succ_last, if_pos htrim, ← List.append_assoc, List.dropLast_concat]
    exact ⟨⟨rfl, hvalid, fun _ => List.concat_ne_nil _ _⟩, rfl⟩
  · have hbytes : (cnt + 15) / 8 = p := by
      rw [padTrim_iff] at htrim
      omega
    rw [hbytes, if_neg htrim]
    exact ⟨⟨rfl, hvalid, fun h => absurd h htrim⟩, rfl⟩

/-- DECODE's loop on the code units of `len` bits, above a remainder that they complete to `p` bytes: by the symbols, each of
15 bits, down to the partial one. -/
theorem decodeFrom_unitsOf (len : Nat) : ∀ {v i acc cnt p : Nat} {out : List Byte}, acc < 2 ^ cnt → cnt < 8 →
    v < 2 ^ len → cnt + len = 8 * p →
    decodeFrom i acc cnt out ((unitsOf v len).map (·.setWidth 21)) = .ok (out ++ chunks 8 (acc + v * 2 ^ cnt) p) := by
  induction len using Nat.strong_induction_on with
  | _ len ih =>
    intro v i acc cnt p out hacc hcnt hv hp
    obtain rfl | hpos := Nat.eq_zero_or_pos len
    · obtain rfl : p = 0 := by omega
      rw [unitsOf_zero, chunks_zero, List.append_nil]
      rfl
    by_cases hlen : len < 15
    · exact decodeFrom_unitsOf_of_lt hpos hlen hacc hv hp i out
    · have hlow : (slice v 0 15).toNat = v % 2 ^ 15 := by rw [slice_toNat, Nat.pow_zero, Nat.div_one]
      have hjoin : acc + v % 2 ^ 15 * 2 ^ cnt < 2 ^ (cnt + 15) := by
        rw [← joinBits_eq hacc]
        exact joinBits_lt hacc (Nat.mod_lt _ (Nat.two_pow_pos 15))
      have hrest : v / 2 ^ 15 < 2 ^ (len - 15) := by
        rw [Nat.div_lt_iff_lt_mul (Nat.two_pow_pos 15), ← Nat.pow_add, Nat.sub_add_cancel (by omega)]
        exact hv
      rw [unitsOf_of_le (by omega), List.map_cons, decodeFrom_of_data (classify_laneEnc _), hlow, joinBits_eq hacc,
        ih (len - 15) (by omega) (p := p - (cnt + 15) / 8) (shiftRight_bytes_lt hjoin) (by omega) hrest (by omega),
        List.append_assoc, ← chunks_symbol_append (by omega)]

/-- DECODE of ENCODE is the identity (42_decoder.md R158). -/
theorem decodeStream_encodeStream (bytes : List Byte) :
    decodeStream ((encodeStream bytes).map (·.setWidth 21)) = .ok bytes := by
  rw [decodeStream, encodeStream_eq_unitsOf, decodeFrom_unitsOf _ (by decide) (by decide) (streamValue_lt bytes)
    (Nat.zero_add _), Nat.pow_zero, Nat.mul_one, Nat.zero_add, chunks_streamValue, List.nil_append]

end Sys2Proof.Machine
end

section
/-! Whole streams through the machine: from a cleared encoder the words of a stream emit ENCODE of its bytes (41_encoder.md
R130), and from a cleared decoder the words of a stream that DECODE accepts emit its bytes and report OK (42_decoder.md
R157); so the round trip holds through the machine (R158). -/

namespace Sys2Proof.Machine

/-- A command's word is performed, and the words after it continue from the state it leaves. -/
theorem runWords_encode_cons {i : Instr} {s t : State} (h : exec i s = .next t) (ws : List CmdWord) :
    runWords (encode i :: ws) s = runWords ws t := by
  rw [runWords, performWord_of_ok s (decode_encode i), h]
  rfl

/-! ### ENC_BYTE on the pending bits -/

theorem EncEngine.legal_reset : EncEngine.reset.Legal := ⟨by decide, by decide⟩

theorem encJoin_eq {e : EncEngine} (he : e.Legal) (b : Byte) :
    encJoin e b = e.acc.toNat + b.toNat * 2 ^ e.cnt.toNat := joinBits_eq he.acc_lt

theorem encJoin_lt {e : EncEngine} (he : e.Legal) (b : Byte) : encJoin e b < 2 ^ (e.cnt.toNat + 8) :=
  joinBits_lt he.acc_lt b.isLt

/-- With fewer than 15 bits every bit stays pending. -/
theorem encAfter_encByte_of_lt {e : EncEngine} (he : e.Legal) (b : Byte) (h : e.cnt.toNat + 8 < 15) :
    (encAfter (.encByte b) e).acc.toNat = encJoin e b ∧ (encAfter (.encByte b) e).cnt.toNat = e.cnt.toNat + 8 := by
  have hfits : 2 ^ (e.cnt.toNat + 8) ≤ 2 ^ 14 := Nat.pow_le_pow_right (by decide) (by omega)
  have hjoin := encJoin_lt he b
  rw [encAfter, if_neg (by omega), slice_toNat, BitVec.toNat_ofNat]
  omega

/-- With 15 bits the low 15 leave and the others stay pending. -/
theorem encAfter_encByte_of_le {e : EncEngine} (he : e.Legal) (b : Byte) (h : 15 ≤ e.cnt.toNat + 8) :
    (encAfter (.encByte b) e).acc.toNat = encJoin e b / 2 ^ 15 ∧
      (encAfter (.encByte b) e).cnt.toNat = e.cnt.toNat + 8 - 15 := by
  have hcnt := he.cnt_le
  have hfits : 2 ^ (e.cnt.toNat + 8) ≤ 2 ^ 22 := Nat.pow_le_pow_right (by decide) (by omega)
  have hjoin := encJoin_lt he b
  rw [encAfter, if_pos h, slice_toNat, BitVec.toNat_ofNat]
  omega

/-- ENC_BYTE keeps the pending bits below the count (10_state.md R44, item 1). -/
theorem encAfter_encByte_legal {e : EncEngine} (he : e.Legal) (b : Byte) : (encAfter (.encByte b) e).Legal := by
  have hcnt := he.cnt_le
  have hjoin := encJoin_lt he b
  by_cases hc : 15 ≤ e.cnt.toNat + 8
  · obtain ⟨hacc, hcnt'⟩ := encAfter_encByte_of_le he b hc
    refine ⟨by omega, ?_⟩
    rw [hacc, hcnt', Nat.div_lt_iff_lt_mul (Nat.two_pow_pos 15), ← Nat.pow_add, Nat.sub_add_cancel hc]
    exact hjoin
  · obtain ⟨hacc, hcnt'⟩ := encAfter_encByte_of_lt he b (by omega)
    exact ⟨by omega, by rw [hacc, hcnt']; exact hjoin⟩

/-! ### The encoder stream -/

/-- The code units the encoder has still to emit for the bytes to come: those of the pending bits with the bytes above. -/
def unitsToCome (e : EncEngine) (bytes : List Byte) : List CodeUnit :=
  unitsOf (e.acc.toNat + streamValue bytes * 2 ^ e.cnt.toNat) (e.cnt.toNat + 8 * bytes.length)

theorem unitsToCome_reset (bytes : List Byte) : unitsToCome EncEngine.reset bytes = encodeStream bytes := by
  rw [encodeStream_eq_unitsOf, unitsToCome]
  simp [EncEngine.reset]

/-- At the end of the bytes ENC_END emits what is left. -/
theorem unitsToCome_nil {e : EncEngine} (he : e.Legal) : unitsToCome e [] = encEmits .encEnd e := by
  have hcnt := he.cnt_le
  rw [unitsToCome, streamValue, Nat.zero_mul, Nat.add_zero, List.length_nil, Nat.mul_zero, Nat.add_zero,
    encEmits_encEnd]
  by_cases hzero : e.cnt.toNat = 0
  · rw [hzero, unitsOf_zero, if_neg (not_not.2 rfl)]
  · have hsym : slice e.acc.toNat 0 15 = e.acc.setWidth 15 := BitVec.ofNat_toNat 15 e.acc
    rw [unitsOf_of_lt (by omega) (by omega), if_pos hzero, hsym]
    rfl

/-- A byte's ENC_BYTE emits the first of the code units to come, and leaves the others to come. -/
theorem unitsToCome_cons {e : EncEngine} (he : e.Legal) (b : Byte) (bs : List Byte) :
    unitsToCome e (b :: bs) = encEmits (.encByte b) e ++ unitsToCome (encAfter (.encByte b) e) bs := by
  have hvalue : e.acc.toNat + streamValue (b :: bs) * 2 ^ e.cnt.toNat =
      encJoin e b + streamValue bs * 2 ^ (e.cnt.toNat + 8) := by
    rw [encJoin_eq he, streamValue]
    ring
  have hlen : e.cnt.toNat + 8 * (b :: bs).length = e.cnt.toNat + 8 + 8 * bs.length := by
    rw [List.length_cons]
    omega
  rw [unitsToCome, unitsToCome, hvalue, hlen, encEmits]
  by_cases hc : 15 ≤ e.cnt.toNat + 8
  · obtain ⟨hacc, hcnt⟩ := encAfter_encByte_of_le he b hc
    have hpow : 2 ^ (e.cnt.toNat + 8) = 2 ^ 15 * 2 ^ (e.cnt.toNat + 8 - 15) := by
      rw [← Nat.pow_add, Nat.add_sub_of_le hc]
    have hrest : (encJoin e b + streamValue bs * 2 ^ (e.cnt.toNat + 8)) / 2 ^ 15 =
        encJoin e b / 2 ^ 15 + streamValue bs * 2 ^ (e.cnt.toNat + 8 - 15) := by
      rw [hpow, Nat.mul_left_comm, Nat.add_mul_div_left _ _ (Nat.two_pow_pos 15)]
    rw [unitsOf_of_le (by omega), slice_add_mul_pow (by omega), hrest, if_pos hc, hacc, hcnt, ← Nat.sub_add_comm hc]
    rfl
  · obtain ⟨hacc, hcnt⟩ := encAfter_encByte_of_lt he b (by omega)
    rw [if_neg hc, hacc, hcnt]
    rfl

/-- The words of an encoder stream emit the code units to come and clear the engine. -/
theorem runWords_encoderStream (bytes : List Byte) : ∀ {s : State}, s.enc.Legal →
    runWords (encoderStreamWords bytes) s = .next
      { s with enc := EncEngine.reset, encOut := s.encOut ++ unitsToCome s.enc bytes } := by
  induction bytes with
  | nil =>
    intro s hs
    rw [unitsToCome_nil hs]
    exact runWords_encode_cons (exec_of_isEncoderCommand rfl s) []
  | cons b bs ih =>
    intro s hs
    rw [unitsToCome_cons hs, ← List.append_assoc]
    exact (runWords_encode_cons (exec_of_isEncoderCommand rfl s) _).trans (ih (encAfter_encByte_legal hs b))

/-! ### DEC_CP of a data code point on the remainder -/

/-- A decoder in RUN state that has put the bytes `emitted` on DEC_OUT since its stream began: its remainder lies below
DEC_CNT (10_state.md R44, item 2), and it holds a byte back once a byte was completed (R32). -/
structure DecEngine.Running (d : DecEngine) (emitted : List Byte) : Prop where
  state : d.state = .run
  acc_lt : d.acc.toNat < 2 ^ d.cnt.toNat
  emitted_nil : d.holdV = false → emitted = []

theorem DecEngine.running_reset : DecEngine.reset.Running [] := ⟨rfl, by decide, fun _ => rfl⟩

/-- With no byte held there is none to trim: neither emitted nor held. -/
theorem DecEngine.Running.append_heldBytes_eq_nil_iff {d : DecEngine} {emitted : List Byte} (h : d.Running emitted) :
    emitted ++ heldBytes d = [] ↔ d.holdV = false := by
  cases hv : d.holdV with
  | false => simp [h.emitted_nil hv, heldBytes, hv]
  | true => simp [heldBytes, hv]

/-- The bytes a data code point emits, with the one it holds, are those held before and those it completes. -/
theorem dataBytes_append_heldBytes (sym : Symbol) (d : DecEngine) :
    dataBytes sym d ++ heldBytes (dataDec sym d) = heldBytes d ++ symbolBytes (decJoin d sym) d.cnt.toNat := by
  have hcnt := d.cnt.isLt
  rw [dataBytes, dataDec, List.append_assoc]
  by_cases hc : 16 ≤ d.cnt.toNat + 15
  · have htwo : (d.cnt.toNat + 15) / 8 = 2 := by omega
    rw [if_pos hc, if_pos hc, symbolBytes, htwo]
    rfl
  · have hone : (d.cnt.toNat + 15) / 8 = 1 := by omega
    rw [if_neg hc, if_neg hc, symbolBytes, hone]
    rfl

/-- The bits a data code point leaves over are its remainder (42_decoder.md R156). -/
theorem dataDec_remainder {d : DecEngine} (hacc : d.acc.toNat < 2 ^ d.cnt.toNat) (sym : Symbol) :
    (dataDec sym d).acc.toNat = decJoin d sym >>> (8 * ((d.cnt.toNat + 15) / 8)) ∧
      (dataDec sym d).cnt.toNat = (d.cnt.toNat + 15) % 8 := by
  have hcnt := d.cnt.isLt
  have hleft : decJoin d sym >>> (8 * ((d.cnt.toNat + 15) / 8)) < 2 ^ ((d.cnt.toNat + 15) % 8) :=
    shiftRight_bytes_lt (joinBits_lt hacc sym.isLt)
  have hfits : decJoin d sym >>> (8 * ((d.cnt.toNat + 15) / 8)) < 2 ^ 7 :=
    hleft.trans_le (Nat.pow_le_pow_right (by decide) (by omega))
  rw [Nat.shiftRight_eq_div_pow] at hfits ⊢
  by_cases hc : 16 ≤ d.cnt.toNat + 15
  · have htwo : 8 * ((d.cnt.toNat + 15) / 8) = 16 := by omega
    rw [htwo] at hfits ⊢
    rw [dataDec, if_pos hc, slice_toNat, BitVec.toNat_ofNat]
    exact ⟨Nat.mod_eq_of_lt hfits, by omega⟩
  · have hone : 8 * ((d.cnt.toNat + 15) / 8) = 8 := by omega
    have hzero : d.cnt.toNat = 0 := by omega
    rw [hone] at hfits ⊢
    rw [dataDec, if_neg hc, slice_toNat, hzero]
    exact ⟨Nat.mod_eq_of_lt hfits, rfl⟩

theorem dataDec_state (sym : Symbol) (d : DecEngine) : (dataDec sym d).state = d.state := by
  rw [dataDec]
  split <;> rfl

theorem dataDec_holdV (sym : Symbol) (d : DecEngine) : (dataDec sym d).holdV = true := by
  rw [dataDec]
  split <;> rfl

/-- A data code point keeps the decoder running. -/
theorem DecEngine.Running.data {d : DecEngine} {emitted : List Byte} (h : d.Running emitted) (sym : Symbol) :
    (dataDec sym d).Running (emitted ++ dataBytes sym d) := by
  obtain ⟨hacc, hcnt⟩ := dataDec_remainder h.acc_lt sym
  refine ⟨(dataDec_state sym d).trans h.state, ?_, fun hv => ?_⟩
  · rw [hacc, hcnt]
    exact shiftRight_bytes_lt (joinBits_lt h.acc_lt sym.isLt)
  · exact absurd (dataDec_holdV sym d) (Bool.eq_false_iff.1 hv)

/-! ### The decoder stream -/

theorem exec_decEnd_of_run {s : State} (hs : s.dec.state = .run) : exec .decEnd s =
    .next { s with dec := DecEngine.reset, decOut := s.decOut ++ heldBytes s.dec, decResp := s.decResp ++ [.ok] } := by
  rw [exec_of_isDecoderCommand rfl, decEmits, respEmits, endToken, hs]
  rfl

theorem exec_decEnd_of_padded {s : State} (hs : s.dec.state = .padded) : exec .decEnd s =
    .next { s with dec := DecEngine.reset, decResp := s.decResp ++ [.ok] } := by
  rw [exec_of_isDecoderCommand rfl, decEmits, respEmits, endToken, hs]
  simp [decAfter]

/-- The words of a decoder stream whose code points DECODE accepts, above the remainder and the bytes the decoder has:
DECODE's bytes are on DEC_OUT, OK is on DEC_RESP, and the engine is cleared. -/
theorem runWords_decoderStream_of_ok (cps : List CodePoint) : ∀ {s : State} {i : Nat} {before emitted out : List Byte},
    s.dec.Running emitted → s.decOut = before ++ emitted →
    decodeFrom i s.dec.acc.toNat s.dec.cnt.toNat (emitted ++ heldBytes s.dec) cps = .ok out →
    runWords (decoderStreamWords cps) s =
      .next { s with dec := DecEngine.reset, decOut := before ++ out, decResp := s.decResp ++ [.ok] } := by
  induction cps with
  | nil =>
    intro s i before emitted out hrun hout hdecode
    obtain rfl := Except.ok.inj hdecode
    rw [← List.append_assoc, ← hout]
    exact runWords_encode_cons (exec_decEnd_of_run hrun.state) []
  | cons c rest ih =>
    intro s i before emitted out hrun hout hdecode
    cases hc : classify c with
    | invalid =>
      rw [decodeFrom_of_invalid hc] at hdecode
      cases hdecode
    | pad k =>
      obtain ⟨⟨rfl, hvalid, htrim⟩, rfl⟩ := (decodeFrom_eq_ok_iff_of_pad hc).1 hdecode
      rw [ne_eq, hrun.append_heldBytes_eq_nil_iff, Bool.not_eq_false] at htrim
      have haccepted : padRefused k s.dec = false := by
        rw [padRefused, hvalid]
        cases hk : padTrim k with
        | false => rfl
        | true => rw [htrim hk]; rfl
      have hbytes : (if padTrim k then (emitted ++ heldBytes s.dec).dropLast else emitted ++ heldBytes s.dec) =
          emitted ++ if padTrim k then [] else heldBytes s.dec := by
        cases hk : padTrim k with
        | false => rfl
        | true => simp [heldBytes, htrim hk]
      rw [hbytes, ← List.append_assoc, ← hout]
      exact (runWords_encode_cons (exec_decCp_of_accepted hrun.state hc haccepted) _).trans
        (runWords_encode_cons (exec_decEnd_of_padded rfl) [])
    | data sym =>
      obtain ⟨hacc, hcnt⟩ := dataDec_remainder hrun.acc_lt sym
      have hexec := exec_decCp_of_run hrun.state c
      rw [runDec_of_data hc, runBytes_of_data hc, hout, List.append_assoc] at hexec
      rw [decodeFrom_of_data hc, List.append_assoc, ← decJoin, ← dataBytes_append_heldBytes, ← List.append_assoc,
        ← hacc, ← hcnt] at hdecode
      exact (runWords_encode_cons hexec _).trans (ih (hrun.data sym) rfl hdecode)

/-- From a cleared decoder, the words of a stream that DECODE accepts (42_decoder.md R157); no bound on its length is
needed, as only an error reports a position. -/
theorem runWords_decoderStream_of_reset {cps : List CodePoint} {out : List Byte} {s : State}
    (hs : s.dec = DecEngine.reset) (hdecode : decodeStream cps = .ok out) : runWords (decoderStreamWords cps) s =
      .next { s with dec := DecEngine.reset, decOut := s.decOut ++ out, decResp := s.decResp ++ [.ok] } := by
  have hrun : s.dec.Running [] := hs ▸ DecEngine.running_reset
  refine runWords_decoderStream_of_ok cps (i := 0) hrun (List.append_nil _).symm ?_
  rw [hs]
  exact hdecode

/-! ### The round trip -/

/-- Settles O52: DECODE inverts ENCODE, and the machine emits the one and then the other. -/
theorem roundTripOfEveryByteSequence : Obligations.RoundTripOfEveryByteSequence := by
  refine fun bytes => ⟨decodeStream_encodeStream bytes, fun s henc hdec => ?_⟩
  have hlegal : s.enc.Legal := henc ▸ EncEngine.legal_reset
  have hencode := runWords_encoderStream bytes hlegal
  rw [henc, unitsToCome_reset] at hencode
  exact ⟨_, _, encodeStream bytes, hencode, rfl,
    runWords_decoderStream_of_reset hdec (decodeStream_encodeStream bytes), rfl, rfl⟩

end Sys2Proof.Machine
end

section
/-! The control rules (43_control.md): NOP leaves the state as it is (R190), and a word outside the opcode map's rows sets
ILLEGAL and nothing else (R191). -/

namespace Sys2Proof.Machine

/-! ### NOP -/

/-- The word of NOP is all zeros (30_encoding.md R75). -/
theorem encode_nop : encode .nop = 0x00000000#32 := rfl

/-- NOP's rule has no read, no write and no emit. -/
theorem exec_nop (s : State) : exec .nop s = .next s := rfl

/-- Settles O14: the zero word is NOP's, and NOP's rule answers the state it was given. -/
theorem nopDoesNothing : Obligations.NopDoesNothing :=
  ⟨decode_eq_ok_iff.2 encode_nop.symm, exec_nop⟩

/-! ### A word outside the rows -/

/-- The illegal words are those no command encodes to. -/
theorem decode_error_iff_forall_ne_encode (w : CmdWord) : (∃ e, decode w = .error e) ↔ ∀ i, w ≠ encode i := by
  rw [decode_error_iff_not_ok, not_exists]
  exact forall_congr' fun _ => not_congr decode_eq_ok_iff

/-- A word outside the rows sets ILLEGAL and changes nothing else, whatever the state. -/
theorem performWord_of_forall_ne_encode {w : CmdWord} (s : State) (h : ∀ i, w ≠ encode i) :
    performWord w s = .next { s with illegal := true } := by
  obtain ⟨_, he⟩ := (decode_error_iff_forall_ne_encode w).2 h
  exact performWord_of_error s he

/-- Settles O15: a word outside the rows decodes to an error, a word leaves ILLEGAL set where it was set
(`performWord_illegal_iff`), and reset leaves it clear. -/
theorem wordOutsideTheRowsSetsIllegalOnly : Obligations.WordOutsideTheRowsSetsIllegalOnly :=
  ⟨fun _ s h => performWord_of_forall_ne_encode s h, fun _ _ _ hs h => (performWord_illegal_iff h).2 (.inl hs),
    resetBlock_illegal⟩

end Sys2Proof.Machine
end

section
/-! FormatError (60_exceptions.md R222 to R226): when DEC_CP raises it and what the error entry writes, said once for both
kinds; what a command still does to the decoder in ERROR state, and the ways back from it. -/

namespace Sys2Proof.Machine

/-! ### The code points of no lane -/

theorem nibbleTag_eq_invalid_iff (cp : CodePoint) (c : NibbleClass) : nibbleTag cp c = .invalid ↔ c = .invalid := by
  cases c <;> simp [nibbleTag]

/-- NIBBLE_CLASS holds INVALID at the seven unassigned nibbles (10_state.md R26), and past its end. -/
theorem nibbleClassRom_getD_eq_invalid_iff (n : Nat) : nibbleClassRom.getD n .invalid = .invalid ↔
    16 ≤ n ∨ n ∈ [0x1, 0x2, 0x3, 0xA, 0xD, 0xE, 0xF] := by
  by_cases hn : n < 16
  · interval_cases n <;> decide
  · exact iff_of_true (List.getD_eq_default _ _ (Nat.le_of_not_lt hn)) (.inl (Nat.le_of_not_lt hn))

/-- CLASSIFY finds INVALID above U+FFFF and at the unassigned nibbles (40_tag_functions.md R103). -/
theorem classify_eq_invalid_iff (cp : CodePoint) : classify cp = .invalid ↔
    0x10000 ≤ cp.toNat ∨ cp.toNat / 4096 ∈ [0x1, 0x2, 0x3, 0xA, 0xD, 0xE, 0xF] := by
  have habove : 16 ≤ cp.toNat / 4096 ↔ 0x10000 ≤ cp.toNat := Nat.le_div_iff_mul_le (by decide)
  rw [classify_eq_nibbleTag, nibbleTag_eq_invalid_iff, nibbleClassRom_getD_eq_invalid_iff, habove]

/-! ### The error entry -/

/-- `Raises cp d kind p c`: on the decoder registers `d`, DEC_CP of `cp` is `raise FormatError(kind, p, c)`. The three
causes are those of 60_exceptions.md R222 and R223. -/
inductive Raises (cp : CodePoint) (d : DecEngine) : ErrKind → Pos → CodePoint → Prop where
  /-- a code point of no lane -/
  | invalidLane (hrun : d.state = .run) (hcp : classify cp = .invalid) : Raises cp d .invalidLane d.pos cp
  /-- a padding-shaped code point that is no marker, or has nothing to trim -/
  | refusedMarker {k : Int} (hrun : d.state = .run) (hcp : classify cp = .pad k) (hk : padRefused k d = true) :
      Raises cp d .misplacedOrInvalidPadding d.pos cp
  /-- any code point after a marker -/
  | afterMarker (hpadded : d.state = .padded) :
      Raises cp d .misplacedOrInvalidPadding d.markPos (markerCp d.markD)

theorem Raises.kind_ne_none {cp c : CodePoint} {d : DecEngine} {kind : ErrKind} {p : Pos} (h : Raises cp d kind p c) :
    kind ≠ .none := by
  cases h <;> exact ErrKind.noConfusion

/-- A raise writes DEC_STATE and the error record and nothing else (60_exceptions.md R224). -/
theorem exec_decCp_of_raises {s : State} {cp c : CodePoint} {kind : ErrKind} {p : Pos} (h : Raises cp s.dec kind p c) :
    exec (.decCp cp) s = .next { s with dec := raisedDec kind p c s.dec } := by
  cases h with
  | invalidLane hrun hcp =>
    rw [exec_decCp_of_run hrun, runDec_of_invalid hcp, runBytes_of_invalid hcp, List.append_nil]
  | refusedMarker hrun hcp hk => exact exec_decCp_of_refused hrun hcp hk
  | afterMarker hpadded => exact exec_decCp_of_padded hpadded cp

/-- In RUN state a code point leads to ERROR state only by a raise: data keeps RUN state, an accepted marker leaves
PADDED state. -/
theorem raises_of_runDec_state_eq_error {cp : CodePoint} {d : DecEngine} (hrun : d.state = .run)
    (herror : (runDec cp d).state = .error) : ∃ kind p c, Raises cp d kind p c := by
  cases hcp : classify cp with
  | invalid => exact ⟨_, _, _, .invalidLane hrun hcp⟩
  | pad k =>
    cases hk : padRefused k d with
    | true => exact ⟨_, _, _, .refusedMarker hrun hcp hk⟩
    | false =>
      rw [runDec_of_pad hcp, hk] at herror
      exact DecState.noConfusion herror
  | data sym =>
    rw [runDec_of_data hcp, dataDec_state, hrun] at herror
    exact DecState.noConfusion herror

/-- ERROR state is entered only by a DEC_CP that raises. -/
theorem raises_of_decAfter_state_eq_error {i : Instr} {d : DecEngine} (hd : d.state ≠ .error)
    (herror : (decAfter i d).state = .error) : ∃ cp kind p c, i = .decCp cp ∧ Raises cp d kind p c := by
  cases i with
  | nop | encByte b | encEnd | encClear => exact absurd herror hd
  | decEnd | decClear => exact DecState.noConfusion herror
  | decCp cp =>
    cases hstate : d.state with
    | error => exact absurd hstate hd
    | padded => exact ⟨cp, _, _, _, rfl, .afterMarker hstate⟩
    | run =>
      simp only [decAfter, hstate] at herror
      obtain ⟨kind, p, c, hraises⟩ := raises_of_runDec_state_eq_error hstate herror
      exact ⟨cp, kind, p, c, rfl, hraises⟩

/-- Everything the entry into ERROR state can be: a DEC_CP with one of the causes of `Raises`, and what it writes. -/
theorem exec_entersError {i : Instr} {s t : State} (h : exec i s = .next t) (hs : s.dec.state ≠ .error)
    (ht : t.dec.state = .error) : ∃ cp kind p c, i = .decCp cp ∧ Raises cp s.dec kind p c ∧
      t = { s with dec := raisedDec kind p c s.dec } := by
  obtain ⟨cp, kind, p, c, rfl, hraises⟩ : ∃ cp kind p c, i = .decCp cp ∧ Raises cp s.dec kind p c := by
    obtain rfl := exec_eq_next_iff.1 h
    exact raises_of_decAfter_state_eq_error hs ht
  rw [exec_decCp_of_raises hraises, Host.Outcome.next.injEq] at h
  exact ⟨cp, kind, p, c, rfl, hraises, h.symm⟩

/-- Settles O24: of the causes of `Raises` only the first is of kind InvalidLane. -/
theorem invalidLaneRaised : Obligations.InvalidLaneRaised := by
  refine ⟨classify_eq_invalid_iff, fun _ _ hrun hcp => exec_decCp_of_raises (.invalidLane hrun hcp), ?_⟩
  intro i s t h hs ht hkind
  obtain ⟨cp, kind, p, c, rfl, hraises, rfl⟩ := exec_entersError h hs ht
  cases hraises with
  | invalidLane hrun hcp => exact ⟨hrun, cp, rfl, hcp⟩
  | refusedMarker | afterMarker => exact ErrKind.noConfusion hkind

/-! ### ERROR state -/

/-- In ERROR state nothing leaves on DEC_OUT, the held byte neither (60_exceptions.md R224). -/
theorem decEmits_of_error {d : DecEngine} (hd : d.state = .error) (i : Instr) : decEmits i d = [] := by
  cases i with
  | nop | encByte b | encEnd | encClear | decClear => rfl
  | decCp cp | decEnd => simp [decEmits, hd]

/-- In ERROR state a command that does not end or drop the stream leaves the decoder as it is (60_exceptions.md R226). -/
theorem decAfter_of_error {d : DecEngine} (hd : d.state = .error) {i : Instr} (hend : i ≠ .decEnd)
    (hclear : i ≠ .decClear) : decAfter i d = d := by
  cases i with
  | nop | encByte b | encEnd | encClear => rfl
  | decCp cp => simp only [decAfter, hd]
  | decEnd => exact absurd rfl hend
  | decClear => exact absurd rfl hclear

/-- Settles O26: the entry writes `raisedDec` and no more (`exec_entersError`); from ERROR state by `exec_decCp_of_error`
and `decEmits_of_error`. -/
theorem errorEntryIsPrecise : Obligations.ErrorEntryIsPrecise := by
  intro cp s t hs h ht
  obtain ⟨_, _, _, _, _, hraises, rfl⟩ := exec_entersError h hs ht
  refine ⟨rfl, hraises.kind_ne_none, exec_decCp_of_error ht, fun i u hu => ?_⟩
  obtain rfl := exec_eq_next_iff.1 hu
  rw [afterCommand_decOut, decEmits_of_error ht, List.append_nil]

/-- DEC_END after an error reports the record as one token, emits no byte and clears the engine (42_decoder.md R153). -/
theorem exec_decEnd_of_error {s : State} (hs : s.dec.state = .error) : exec .decEnd s =
    .next { s with dec := DecEngine.reset
                   decResp := s.decResp ++ [.err s.dec.errKind s.dec.errPos s.dec.errCp] } := by
  rw [exec_of_isDecoderCommand rfl, decEmits_of_error hs, respEmits, endToken, if_pos hs, List.append_nil]
  rfl

/-- Settles O27: the three ways back, then the other commands by `decAfter_of_error`, and an illegal word, which writes
ILLEGAL only. -/
theorem errorRecordStaysUntilCleared : Obligations.ErrorRecordStaysUntilCleared := by
  intro s hs
  refine ⟨exec_decEnd_of_error hs, rfl, resetBlock_dec s, fun i t hend hclear h => ?_, fun w t ⟨_, he⟩ h => ?_⟩
  · obtain rfl := exec_eq_next_iff.1 h
    exact decAfter_of_error hs hend hclear
  · rw [performWord_of_error s he] at h
    cases h
    rfl

end Sys2Proof.Machine
end

section
/-! One word and one step as the next state they answer, so that nothing is stuck (70_reset_and_hazards.md R265) and
stepping through the presented words performs them in order (10_state.md R23); and the words the assembler gives
(30_encoding.md R80). -/

namespace Sys2Proof.Machine

/-! ### Decoder and encoder -/

/-- Settles O1: `decode_eq_ok_iff` on every word. -/
theorem decodeEncodeAgree : Obligations.DecodeEncodeAgree := fun _ _ => decode_eq_ok_iff

/-- Settles O5: each written-out word is the encoder's word. -/
theorem writtenOutWordsDecode : Obligations.WrittenOutWordsDecode :=
  ⟨decode_eq_ok_iff.2 rfl, decode_eq_ok_iff.2 rfl, decode_eq_ok_iff.2 rfl, decode_eq_ok_iff.2 rfl,
    decode_eq_ok_iff.2 rfl, decode_eq_ok_iff.2 rfl, decode_eq_ok_iff.2 rfl, decode_eq_ok_iff.2 rfl⟩

/-! ### The state a word leaves -/

/-- The state a word leaves: that of the command it names, or the one with ILLEGAL set. -/
def afterWord (w : CmdWord) (s : State) : State :=
  match decode w with
  | .ok i => afterCommand i s
  | .error _ => { s with illegal := true }

theorem afterWord_of_ok {w : CmdWord} {i : Instr} (h : decode w = .ok i) (s : State) :
    afterWord w s = afterCommand i s := by
  rw [afterWord, h]

theorem afterWord_of_error {w : CmdWord} {e : DecodeError} (h : decode w = .error e) (s : State) :
    afterWord w s = { s with illegal := true } := by
  rw [afterWord, h]

/-- A word always answers the next state. -/
theorem performWord_next (w : CmdWord) (s : State) : performWord w s = .next (afterWord w s) := by
  cases h : decode w with
  | ok i => rw [performWord_of_ok s h, afterWord_of_ok h, exec_next]
  | error e => rw [performWord_of_error s h, afterWord_of_error h]

/-- The words of a run are performed one after another (10_state.md R23). -/
theorem runWords_next (ws : List CmdWord) : ∀ s : State,
    runWords ws s = .next (ws.foldl (fun s w => afterWord w s) s) := by
  induction ws with
  | nil => exact fun _ => rfl
  | cons w ws ih => exact fun s => by rw [runWords, performWord_next]; exact ih _

theorem runWords_cons (w : CmdWord) (ws : List CmdWord) (s : State) :
    runWords (w :: ws) s = runWords ws (afterWord w s) := by
  rw [runWords, performWord_next]
  rfl

/-- No word reads the host's moves: putting other moves on the list before the word or after it is the same. -/
theorem afterWord_setHostMoves (w : CmdWord) (s : State) (ms : List HostMove) :
    afterWord w { s with hostMoves := ms } = { afterWord w s with hostMoves := ms } := by
  cases h : decode w with
  | ok i => rw [afterWord_of_ok h, afterWord_of_ok h]; rfl
  | error e => rw [afterWord_of_error h, afterWord_of_error h]

/-! ### The step -/

/-- A step performs the next word on the host's list, at the state without it. -/
theorem step_of_command {s : State} {w : CmdWord} {rest : List HostMove} (h : s.hostMoves = .command w :: rest) :
    step s = performWord w { s with hostMoves := rest } := by
  rw [step, h]
  rfl

theorem step_of_reset {s : State} {rest : List HostMove} (h : s.hostMoves = .reset :: rest) :
    step s = .next { State.reset with hostMoves := rest } := by
  rw [step, h]
  rfl

theorem step_of_nil {s : State} (h : s.hostMoves = []) : step s = .next s := by
  rw [step, h]

/-- Settles O7: the word on the list is performed as the command it names. -/
theorem stepRunsTheDecodedCommand : Obligations.StepRunsTheDecodedCommand := fun _ _ _ _ hmoves hdecode =>
  (step_of_command hmoves).trans (performWord_of_ok _ hdecode)

/-- Settles O8: the word on the list is performed as an illegal word. -/
theorem stepOnIllegalWordSetsIllegal : Obligations.StepOnIllegalWordSetsIllegal := fun _ _ _ _ hmoves hdecode =>
  (step_of_command hmoves).trans (performWord_of_error _ hdecode)

/-- Settles O9: the other two cases of the host's list. -/
theorem stepOnResetAndIdle : Obligations.StepOnResetAndIdle :=
  ⟨fun _ _ => step_of_reset, fun _ => step_of_nil⟩

/-- A command's word placed on the list is the next move. -/
theorem withFetchWord_encode_hostMoves (i : Instr) (s : State) :
    (s.withFetchWord 32 (encode i).toNat).hostMoves = .command (encode i) :: s.hostMoves := by
  rw [State.withFetchWord, Nat.mod_eq_of_lt (encode i).isLt, BitVec.ofNat_toNat, BitVec.setWidth_eq]

/-- Settles O10: the placed word is the next on the list, and decodes to its command. -/
theorem placedWordIsPerformedNext : Obligations.PlacedWordIsPerformedNext := fun i s =>
  stepRunsTheDecodedCommand _ _ _ i (withFetchWord_encode_hostMoves i s) (decode_encode i)

/-- A step always answers a next state. -/
theorem exists_step_eq_next (s : State) : ∃ t, step s = .next t := by
  match h : s.hostMoves with
  | [] => exact ⟨_, step_of_nil h⟩
  | .command w :: rest => exact ⟨_, (step_of_command h).trans (performWord_next w _)⟩
  | .reset :: rest => exact ⟨_, step_of_reset h⟩

/-- Settles O12: commands, words, steps and runs each answer a next state that is named. -/
theorem nothingIsStuck : Obligations.NothingIsStuck :=
  ⟨fun i s => ⟨_, exec_next i s⟩, fun w s => ⟨_, performWord_next w s⟩, exists_step_eq_next,
    fun ws s => ⟨_, runWords_next ws s⟩⟩

/-- A run is a step, and the run from the state it leaves. -/
theorem run_succ_of_step {M : Host.Core} {s t : M.State} (h : M.step s = .next t) (k : Nat) :
    M.run (k + 1) s = M.run k t := by
  rw [Host.Core.run, h]

/-- Settles O13, by induction on the words: each step takes one word off the list and performs it, and the words to come
neither see nor change the list. -/
theorem steppingThePresentedWordsRunsThem : Obligations.SteppingThePresentedWordsRunsThem := by
  intro ws
  induction ws with
  | nil =>
    intro s hs
    have hsame : s = { s with hostMoves := [] } := congrArg (fun ms => { s with hostMoves := ms }) hs
    exact congrArg Host.Outcome.next hsame
  | cons w ws ih =>
    intro s hs
    have hstep : step s = .next { afterWord w s with hostMoves := ws.map .command } := by
      rw [step_of_command hs, performWord_next, afterWord_setHostMoves]
    rw [runWords_cons, afterWord_setHostMoves w s []]
    exact (run_succ_of_step (M := core) hstep ws.length).trans
      (ih { afterWord w s with hostMoves := ws.map .command } rfl)

/-! ### The assembler -/

theorem assembleLine_eq (l : AsmLine) : assembleLine l = if l.wellFormed then some (expandLine l) else none := rfl

/-- A number that fits a field is the same in the whole word. -/
theorem setWidth_ofNat_of_lt {m n x : Nat} (h : x < 2 ^ m) : (BitVec.ofNat m x).setWidth n = BitVec.ofNat n x := by
  apply BitVec.eq_of_toNat_eq
  rw [BitVec.toNat_setWidth, BitVec.toNat_ofNat, BitVec.toNat_ofNat, Nat.mod_eq_of_lt h]

theorem encByteWord_eq_or {b : Nat} (h : b < 2 ^ 8) : encByteWord b = 0x10000000#32 ||| BitVec.ofNat 32 b := by
  rw [encByteWord, encode_encByte_eq_or, setWidth_ofNat_of_lt h]

theorem decCpWord_eq_or {cp : Nat} (h : cp < 2 ^ 21) : decCpWord cp = 0x40000000#32 ||| BitVec.ofNat 32 cp := by
  rw [decCpWord, encode_decCp_eq_or, setWidth_ofNat_of_lt h]

theorem assembleLine_encByte (b : Nat) : assembleLine (.encByte b) =
    if b ≤ 255 then some [0x10000000#32 ||| BitVec.ofNat 32 b] else none := by
  by_cases hb : b < 256
  · rw [if_pos (by omega), ← encByteWord_eq_or hb, assembleLine_eq, AsmLine.wellFormed, byteInRange, decide_eq_true hb]
    rfl
  · rw [if_neg (by omega), assembleLine_eq, AsmLine.wellFormed, byteInRange, decide_eq_false hb]
    rfl

theorem assembleLine_decCp (cp : Nat) : assembleLine (.decCp cp) =
    if cp ≤ 0x1FFFFF then some [0x40000000#32 ||| BitVec.ofNat 32 cp] else none := by
  by_cases hcp : cp < 0x200000
  · rw [if_pos (by omega), ← decCpWord_eq_or hcp, assembleLine_eq, AsmLine.wellFormed, cpInRange, decide_eq_true hcp]
    rfl
  · rw [if_neg (by omega), assembleLine_eq, AsmLine.wellFormed, cpInRange, decide_eq_false hcp]
    rfl

/-- Settles O6: the lines without an operand by evaluation, the two commands with one by their ranges. -/
theorem assemblerLinesGiveWords : Obligations.AssemblerLinesGiveWords :=
  ⟨rfl, assembleLine_encByte, rfl, rfl, assembleLine_decCp, rfl, rfl,
    fun _ => if_congr decide_eq_true_iff rfl rfl⟩

end Sys2Proof.Machine
end

section
/-! The invariants of reachable states: the registers (10_state.md R44, items 1 to 7, and R36), the streams (R42), and the
start of a decoder stream (R44, item 8). Each is kept by what a command does to one engine, and so by every step. -/

namespace Sys2Proof.Machine

/-! ### The encoder engine -/

/-- Every command keeps the pending bits below the count. -/
theorem encAfter_legal {e : EncEngine} (he : e.Legal) (i : Instr) : (encAfter i e).Legal := by
  cases i with
  | encByte b => exact encAfter_encByte_legal he b
  | encEnd | encClear => exact EncEngine.legal_reset
  | nop | decCp cp | decEnd | decClear => exact he

/-! ### The decoder engine -/

theorem DecEngine.legal_reset : DecEngine.reset.Legal := by
  constructor <;> decide

/-- The two-bit code 3 stands for no decoder state (10_state.md R33). -/
theorem decStateCode_ne_three (st : DecState) : decStateCode st ≠ 3 := by
  cases st <;> decide

/-- The two-bit code 3 stands for no error kind (10_state.md R36). -/
theorem errKindCode_ne_three (k : ErrKind) : errKindCode k ≠ 3 := by
  cases k <;> decide

/-- The error entry leaves the registers legal: it records a kind and leaves the others as they are. -/
theorem raisedDec_legal {d : DecEngine} (hd : d.Legal) {kind : ErrKind} (hkind : kind ≠ .none) (p : Pos)
    (c : CodePoint) : (raisedDec kind p c d).Legal where
  acc_lt := hd.acc_lt
  hold_empty := hd.hold_empty
  state_code := decStateCode_ne_three _
  kind_code := errKindCode_ne_three kind
  run_mark := nofun
  padded := nofun
  no_error := fun h => absurd rfl h
  error_kind := fun _ => hkind

/-- The deficit of a valid marker, 1 to 15, is not cut by DEC_MARK_D's four bits. -/
theorem markD_toNat {k : Int} (hk : 1 ≤ k ∧ k ≤ 15) : (BitVec.ofInt 4 k).toNat = k.toNat := by
  rw [ofInt_eq_ofNat_toNat (by omega), BitVec.toNat_ofNat]
  omega

/-- An accepted marker in RUN state leaves the registers legal: nothing is held, no bit is left over, and the deficit
recorded is not 0. -/
theorem paddedDec_legal {d : DecEngine} (hd : d.Legal) (hrun : d.state = .run) {k : Int} (hk : 1 ≤ k ∧ k ≤ 15) :
    (paddedDec k d).Legal where
  acc_lt := (by decide : (0 : BitVec 7).toNat < 2 ^ (0 : BitVec 3).toNat)
  hold_empty := fun _ => rfl
  state_code := decStateCode_ne_three _
  kind_code := errKindCode_ne_three _
  run_mark := nofun
  padded := fun _ => ⟨rfl, rfl, rfl, by rw [paddedDec, markD_toNat hk]; omega⟩
  no_error := fun _ => hd.no_error (hrun ▸ DecState.noConfusion)
  error_kind := nofun

/-- A data code point writes the remainder, the held byte and the position, and no other register. -/
theorem dataDec_frame (sym : Symbol) (d : DecEngine) :
    (dataDec sym d).markPos = d.markPos ∧ (dataDec sym d).markD = d.markD ∧ (dataDec sym d).errKind = d.errKind ∧
      (dataDec sym d).errPos = d.errPos ∧ (dataDec sym d).errCp = d.errCp := by
  rw [dataDec]
  split <;> exact ⟨rfl, rfl, rfl, rfl, rfl⟩

theorem dataDec_pos (sym : Symbol) (d : DecEngine) : (dataDec sym d).pos = d.pos + 1 := by
  rw [dataDec]
  split <;> rfl

/-- The bits a data code point leaves over lie below their count. -/
theorem dataDec_acc_lt {d : DecEngine} (hacc : d.acc.toNat < 2 ^ d.cnt.toNat) (sym : Symbol) :
    (dataDec sym d).acc.toNat < 2 ^ (dataDec sym d).cnt.toNat := by
  obtain ⟨hacc', hcnt'⟩ := dataDec_remainder hacc sym
  rw [hacc', hcnt']
  exact shiftRight_bytes_lt (joinBits_lt hacc sym.isLt)

/-- A data code point in RUN state leaves the registers legal. -/
theorem dataDec_legal {d : DecEngine} (hd : d.Legal) (hrun : d.state = .run) (sym : Symbol) :
    (dataDec sym d).Legal := by
  obtain ⟨hmarkPos, hmarkD, herrKind, herrPos, herrCp⟩ := dataDec_frame sym d
  have hstate : (dataDec sym d).state = .run := (dataDec_state sym d).trans hrun
  exact
    { acc_lt := dataDec_acc_lt hd.acc_lt sym
      hold_empty := fun h => absurd (dataDec_holdV sym d) (Bool.eq_false_iff.1 h)
      state_code := decStateCode_ne_three _
      kind_code := errKindCode_ne_three _
      run_mark := fun _ => by rw [hmarkPos, hmarkD]; exact hd.run_mark hrun
      padded := fun h => absurd (hstate.symm.trans h) DecState.noConfusion
      no_error := fun _ => by rw [herrKind, herrPos, herrCp]; exact hd.no_error (hrun ▸ DecState.noConfusion)
      error_kind := fun h => absurd (hstate.symm.trans h) DecState.noConfusion }

/-- A code point in RUN state leaves the registers legal, whatever its class. -/
theorem runDec_legal {d : DecEngine} (hd : d.Legal) (hrun : d.state = .run) (cp : CodePoint) : (runDec cp d).Legal := by
  cases hcp : classify cp with
  | invalid =>
    rw [runDec_of_invalid hcp]
    exact raisedDec_legal hd ErrKind.noConfusion _ _
  | pad k =>
    rw [runDec_of_pad hcp]
    by_cases hk : padRefused k d = true
    · rw [if_pos hk]
      exact raisedDec_legal hd ErrKind.noConfusion _ _
    · rw [if_neg hk]
      rw [padRefused_iff, not_or, not_not] at hk
      exact paddedDec_legal hd hrun hk.1
  | data sym =>
    rw [runDec_of_data hcp]
    exact dataDec_legal hd hrun sym

/-- Every command keeps the decoder registers legal. -/
theorem decAfter_legal {d : DecEngine} (hd : d.Legal) (i : Instr) : (decAfter i d).Legal := by
  cases i with
  | nop | encByte b | encEnd | encClear => exact hd
  | decEnd | decClear => exact DecEngine.legal_reset
  | decCp cp =>
    cases hstate : d.state with
    | error => simpa only [decAfter, hstate] using hd
    | padded => simpa only [decAfter, hstate] using raisedDec_legal hd ErrKind.noConfusion _ _
    | run => simpa only [decAfter, hstate] using runDec_legal hd hstate cp

/-! ### The whole state -/

theorem State.legal_reset : State.reset.Legal := ⟨EncEngine.legal_reset, DecEngine.legal_reset⟩

/-- Settles O37: a command by each engine's lemma; an illegal word leaves the engines, and reset clears them. -/
theorem stepKeepsLegal : Obligations.StepKeepsLegal := by
  intro s t hs h
  obtain ⟨_, rfl⟩ | ⟨_, _, i, _, _, rfl⟩ | ⟨_, _, _, _, rfl⟩ | ⟨_, _, rfl⟩ := step_cases h
  · exact hs
  · exact ⟨encAfter_legal hs.enc i, decAfter_legal hs.dec i⟩
  · exact ⟨hs.enc, hs.dec⟩
  · exact ⟨State.legal_reset.enc, State.legal_reset.dec⟩

/-! ### The streams -/

theorem isDataUnit_iff (c : CodeUnit) : isDataUnit c = true ↔
    (0x4000 ≤ c.toNat ∧ c.toNat ≤ 0x9FFF) ∨ (0xB000 ≤ c.toNat ∧ c.toNat ≤ 0xCFFF) := by
  simp only [isDataUnit, Bool.or_eq_true, Bool.and_eq_true, decide_eq_true_iff]

/-- The nibbles of LANE_PREFIX are those of the two data ranges (10_state.md R25). -/
theorem lanePrefix_range (t : BitVec 3) :
    (4 ≤ (lanePrefix t).toNat ∧ (lanePrefix t).toNat ≤ 9) ∨ (11 ≤ (lanePrefix t).toNat ∧ (lanePrefix t).toNat ≤ 12) := by
  revert t; decide

/-- LANE_ENC gives data code points only. -/
theorem isDataUnit_laneEnc (sym : Symbol) : isDataUnit (laneEnc sym) = true := by
  have hprefix := lanePrefix_range (sym.extractLsb' 12 3)
  rw [isDataUnit_iff, laneEnc_toNat]
  omega

/-- Every command emits only data code points and the encoder's markers on ENC_OUT. -/
theorem encEmits_units {e : EncEngine} (he : e.Legal) (i : Instr) :
    ∀ c ∈ encEmits i e, isDataUnit c = true ∨ isEncoderMarker c = true := by
  have hcnt := he.cnt_le
  cases i with
  | nop | encClear | decCp cp | decEnd | decClear => exact nofun
  | encByte b =>
    intro c hc
    rw [encEmits, List.mem_ite_nil_right, List.mem_singleton] at hc
    exact .inl (hc.2 ▸ isDataUnit_laneEnc _)
  | encEnd =>
    intro c hc
    rw [encEmits_encEnd, List.mem_ite_nil_right, List.mem_pair] at hc
    obtain ⟨hpos, rfl | rfl⟩ := hc
    · exact .inl (isDataUnit_laneEnc _)
    · exact .inr (isEncoderMarker_marker (by omega) hcnt)

/-- In a legal state a completion token that reports an error names its kind. -/
theorem endToken_wellFormed {d : DecEngine} (hd : d.Legal) : (endToken d).wellFormed = true := by
  rw [endToken]
  split
  · exact bne_iff_ne.2 (hd.error_kind ‹_›)
  · rfl

/-- Every command emits only well-formed tokens on DEC_RESP. -/
theorem respEmits_wellFormed {d : DecEngine} (hd : d.Legal) (i : Instr) :
    ∀ k ∈ respEmits i d, k.wellFormed = true := by
  cases i with
  | decEnd =>
    intro k hk
    obtain rfl := List.mem_singleton.1 hk
    exact endToken_wellFormed hd
  | nop | encByte b | encEnd | encClear | decCp cp | decClear => exact nofun

theorem State.streamsLegal_reset : State.reset.StreamsLegal := ⟨nofun, nofun⟩

/-- Settles O36: the reset registers are legal, and the reset streams are empty. -/
theorem resetIsLegal : Obligations.ResetIsLegal := ⟨State.legal_reset, State.streamsLegal_reset⟩

/-- Settles O38: a command appends only what `encEmits_units` and `respEmits_wellFormed` allow. -/
theorem stepKeepsStreamsLegal : Obligations.StepKeepsStreamsLegal := by
  intro s t hs hstreams h
  obtain ⟨_, rfl⟩ | ⟨_, _, i, _, _, rfl⟩ | ⟨_, _, _, _, rfl⟩ | ⟨_, _, rfl⟩ := step_cases h
  · exact hstreams
  · exact ⟨List.forall_mem_append.2 ⟨hstreams.encOut, encEmits_units hs.enc i⟩,
      List.forall_mem_append.2 ⟨hstreams.decResp, respEmits_wellFormed hs.dec i⟩⟩
  · exact ⟨hstreams.encOut, hstreams.decResp⟩
  · exact ⟨State.streamsLegal_reset.encOut, State.streamsLegal_reset.decResp⟩

/-! ### The start of a decoder stream -/

/-- In RUN at position 0 no byte is held and no bit is left over (10_state.md R44, item 8). -/
def DecEngine.StartClean (d : DecEngine) : Prop := d.state = .run → d.pos = 0 → d.holdV = false ∧ d.cnt = 0

theorem DecEngine.startClean_of_ne_run {d : DecEngine} (h : d.state ≠ .run) : d.StartClean :=
  fun hrun => absurd hrun h

theorem raisedDec_startClean (kind : ErrKind) (p : Pos) (c : CodePoint) (d : DecEngine) :
    (raisedDec kind p c d).StartClean := DecEngine.startClean_of_ne_run DecState.noConfusion

/-- A code point in RUN state either leaves RUN state or advances a position that does not wrap to 0. -/
theorem runDec_startClean {d : DecEngine} (hpos : d.pos ≠ 0xFFFFFFFF#32) (cp : CodePoint) :
    (runDec cp d).StartClean := by
  cases hcp : classify cp with
  | invalid =>
    rw [runDec_of_invalid hcp]
    exact raisedDec_startClean _ _ _ d
  | pad k =>
    rw [runDec_of_pad hcp]
    split <;> exact DecEngine.startClean_of_ne_run DecState.noConfusion
  | data sym =>
    intro _ hzero
    rw [runDec_of_data hcp, dataDec_pos] at hzero
    exact absurd (show d.pos = 0xFFFFFFFF#32 by bv_omega) hpos

/-- Every command keeps the start of a stream clean, until DEC_POS wraps. -/
theorem decAfter_startClean {d : DecEngine} (hd : d.StartClean) (hpos : d.pos ≠ 0xFFFFFFFF#32) (i : Instr) :
    (decAfter i d).StartClean := by
  cases i with
  | nop | encByte b | encEnd | encClear => exact hd
  | decEnd | decClear => exact fun _ _ => ⟨rfl, rfl⟩
  | decCp cp =>
    cases hstate : d.state with
    | error => simpa only [decAfter, hstate] using hd
    | padded => simpa only [decAfter, hstate] using raisedDec_startClean _ _ _ d
    | run => simpa only [decAfter, hstate] using runDec_startClean hpos cp

/-- Settles O39: a command by `decAfter_startClean`; an illegal word leaves the decoder, and reset clears it. -/
theorem stepKeepsStreamStart : Obligations.StepKeepsStreamStart := by
  intro s t _ hstart hpos h
  obtain ⟨_, rfl⟩ | ⟨_, _, i, _, _, rfl⟩ | ⟨_, _, _, _, rfl⟩ | ⟨_, _, rfl⟩ := step_cases h
  · exact hstart
  · exact decAfter_startClean hstart hpos i
  · exact hstart
  · exact fun _ _ => ⟨rfl, rfl⟩

end Sys2Proof.Machine
end

section
/-! LANE_ENC and CLASSIFY as inverses of one another (40_tag_functions.md R101, R104), markers beside data (R109); the
commands that take a symbol or a byte as arithmetic on the pending bits (20_memory.md R50); and the markers in RUN state,
accepted (42_decoder.md R151) or raised as MisplacedOrInvalidPadding (60_exceptions.md R223). -/

namespace Sys2Proof.Machine

/-! ### LANE_ENC and CLASSIFY -/

/-- LANE_ENC puts the prefix of the top-3 value in its place. -/
theorem laneEnc_append (t : BitVec 3) (low : BitVec 12) : laneEnc (t ++ low) = lanePrefix t ++ low := by
  rw [laneEnc, BitVec.extractLsb'_append_eq_left, BitVec.extractLsb'_append_eq_right]

/-- LANE_ENC is injective: CLASSIFY reads the symbol back. -/
theorem laneEnc_injective : Function.Injective laneEnc := fun sym sym' h =>
  Tag.data.inj ((classify_laneEnc sym).symm.trans (h ▸ classify_laneEnc sym'))

/-- The code points LANE_ENC gives are those whose prefix nibble LANE_PREFIX holds. -/
theorem exists_laneEnc_eq_iff_lanePrefix (c : CodeUnit) :
    (∃ sym, laneEnc sym = c) ↔ ∃ t, (lanePrefix t).toNat = c.toNat / 4096 := by
  constructor
  · rintro ⟨sym, rfl⟩
    refine ⟨sym.extractLsb' 12 3, ?_⟩
    rw [laneEnc_toNat]
    omega
  · rintro ⟨t, ht⟩
    refine ⟨t ++ c.extractLsb' 0 12, ?_⟩
    apply BitVec.eq_of_toNat_eq
    rw [laneEnc_append, toNat_append_eq, BitVec.extractLsb'_toNat, Nat.shiftRight_zero, ht]
    omega

/-- The entries of LANE_PREFIX (10_state.md R25). -/
theorem exists_lanePrefix_toNat_eq_iff (n : Nat) :
    (∃ t, (lanePrefix t).toNat = n) ↔ n ∈ [0x4, 0x5, 0x6, 0x7, 0x8, 0x9, 0xB, 0xC] := by
  constructor
  · rintro ⟨t, rfl⟩
    revert t; decide
  · intro hn
    simp only [List.mem_cons, List.not_mem_nil, or_false] at hn
    obtain rfl | rfl | rfl | rfl | rfl | rfl | rfl | rfl := hn
    exacts [⟨2, rfl⟩, ⟨5, rfl⟩, ⟨6, rfl⟩, ⟨7, rfl⟩, ⟨0, rfl⟩, ⟨1, rfl⟩, ⟨3, rfl⟩, ⟨4, rfl⟩]

theorem exists_laneEnc_eq_iff (c : CodeUnit) :
    (∃ sym, laneEnc sym = c) ↔ c.toNat / 4096 ∈ [0x4, 0x5, 0x6, 0x7, 0x8, 0x9, 0xB, 0xC] :=
  (exists_laneEnc_eq_iff_lanePrefix c).trans (exists_lanePrefix_toNat_eq_iff _)

/-- Settles O31: the image by the nibble, and the eight data nibbles are the two ranges. -/
theorem laneEncInjectiveWithImage : Obligations.LaneEncInjectiveWithImage := by
  refine ⟨fun _ _ h => laneEnc_injective h, exists_laneEnc_eq_iff, fun c => ?_⟩
  rw [exists_laneEnc_eq_iff]
  simp only [List.mem_cons, List.not_mem_nil, or_false]
  omega

/-- CLASSIFY finds DATA only at the code point LANE_ENC gives the symbol (40_tag_functions.md R104). -/
theorem eq_laneEnc_of_classify_eq_data {cp : CodePoint} {sym : Symbol} (h : classify cp = .data sym) :
    cp = (laneEnc sym).setWidth 21 := by
  rw [classify_eq] at h
  split at h
  · cases h
  · split at h
    · rename_i hbelow t ht
      obtain rfl := Tag.data.inj h
      have hnibble := nibble_toNat cp
      rw [(nibbleClass_eq_data _ t).1 ht] at hnibble
      apply BitVec.eq_of_toNat_eq
      rw [BitVec.toNat_setWidth_of_le (by decide), laneEnc_append, toNat_append_eq, hnibble, BitVec.extractLsb'_toNat,
        Nat.shiftRight_zero]
      omega
    · cases h
    · cases h

theorem classify_eq_data_iff {cp : CodePoint} {sym : Symbol} :
    classify cp = .data sym ↔ cp = (laneEnc sym).setWidth 21 :=
  ⟨eq_laneEnc_of_classify_eq_data, fun h => h ▸ classify_laneEnc sym⟩

/-- Settles O33: `classify_eq_data_iff` on every code point. -/
theorem classifyInvertsLaneEnc : Obligations.ClassifyInvertsLaneEnc := fun _ _ => classify_eq_data_iff

/-! ### Markers -/

theorem marker_toNat {c : Nat} (hc : c ≤ 15) : (marker c).toNat = 0x71 - c := by
  rw [marker, baseChar, BitVec.toNat_ofNat]
  omega

/-- A code point below 0x1000 has its distance from BASE_CHAR as deficit (40_tag_functions.md R106). -/
theorem classify_of_le {cp : CodePoint} (h : cp.toNat ≤ 0xFFF) : classify cp = .pad ((cp.toNat : Int) - 0x62) :=
  (classify_eq_pad_iff cp _).2 ⟨h, rfl⟩

/-- Settles O35: a marker is padding-shaped, and `isEncoderMarker` holds of no data code point. -/
theorem markersAreNeverData : Obligations.MarkersAreNeverData := by
  refine ⟨fun c _ hc => marker_toNat (by omega), fun cp sym _ hcp h => ?_, fun c sym hpos hc h => ?_⟩
  · rw [classify_of_le (by omega)] at h
    cases h
  · have hmarker := isEncoderMarker_marker hpos hc
    rw [h, isEncoderMarker_laneEnc] at hmarker
    cases hmarker

/-! ### ENC_BYTE as arithmetic -/

/-- Settles O17: the joined bits are the sum, and the two cases of the count are `encAfter_encByte_of_le` and
`encAfter_encByte_of_lt`. -/
theorem encBytePendingBitsArithmetic : Obligations.EncBytePendingBitsArithmetic := by
  intro b s hs
  refine ⟨_, exec_of_isEncoderCommand rfl s, rfl, fun hcnt => ?_, fun hcnt => ?_⟩
  · obtain ⟨hacc, hcnt'⟩ := encAfter_encByte_of_le hs b (by omega)
    rw [encJoin_eq hs] at hacc
    refine ⟨hacc, by rw [hcnt']; omega, slice (encJoin s.enc b) 0 15, ?_, ?_⟩
    · rw [slice_toNat, Nat.pow_zero, Nat.div_one, encJoin_eq hs]
    · rw [encEmits, if_pos (by omega)]
  · obtain ⟨hacc, hcnt'⟩ := encAfter_encByte_of_lt hs b (by omega)
    rw [encJoin_eq hs] at hacc
    refine ⟨hacc, hcnt', ?_⟩
    rw [encEmits, if_neg (by omega), List.append_nil]

/-! ### DEC_CP of a data code point as arithmetic -/

theorem decJoin_eq {d : DecEngine} (hacc : d.acc.toNat < 2 ^ d.cnt.toNat) (sym : Symbol) :
    decJoin d sym = d.acc.toNat + sym.toNat * 2 ^ d.cnt.toNat := joinBits_eq hacc

/-- With no bit left over a symbol completes one byte, which is held. -/
theorem dataDec_of_cnt_zero {d : DecEngine} (h : d.cnt.toNat = 0) (sym : Symbol) :
    (dataDec sym d).hold = slice (decJoin d sym) 0 8 ∧ dataBytes sym d = heldBytes d := by
  rw [dataDec, dataBytes, if_neg (by omega), if_neg (by omega), List.append_nil]
  exact ⟨rfl, rfl⟩

/-- With bits left over a symbol completes two bytes: the first leaves, the second is held. -/
theorem dataDec_of_cnt_pos {d : DecEngine} (h : 0 < d.cnt.toNat) (sym : Symbol) :
    (dataDec sym d).hold = slice (decJoin d sym) 8 8 ∧
      dataBytes sym d = heldBytes d ++ [slice (decJoin d sym) 0 8] := by
  rw [dataDec, dataBytes, if_pos (by omega), if_pos (by omega)]
  exact ⟨rfl, rfl⟩

/-- The byte a slice of a number is. -/
theorem slice_eight_zero_toNat (v : Nat) : (slice v 0 8).toNat = v % 2 ^ 8 := by
  rw [slice_toNat, Nat.pow_zero, Nat.div_one]

/-- Settles O21: `dataDec_remainder` gives what is left over, by whether there were bits before. -/
theorem decCpDataArithmetic : Obligations.DecCpDataArithmetic := by
  intro cp sym s hs hrun hcp
  have hexec := exec_decCp_of_run hrun cp
  rw [runDec_of_data hcp, runBytes_of_data hcp] at hexec
  obtain ⟨hacc, hcnt⟩ := dataDec_remainder hs.acc_lt sym
  rw [Nat.shiftRight_eq_div_pow, decJoin_eq hs.acc_lt] at hacc
  have hlt := s.dec.cnt.isLt
  refine ⟨_, hexec, rfl, rfl, rfl, dataDec_holdV sym s.dec, dataDec_pos sym s.dec,
    (dataDec_state sym s.dec).trans hrun, fun hzero => ?_, fun hpos => ?_⟩
  · have hzero' : s.dec.cnt.toNat = 0 := congrArg BitVec.toNat hzero
    obtain ⟨hhold, hbytes⟩ := dataDec_of_cnt_zero hzero' sym
    refine ⟨by rw [hbytes]; rfl, ?_, ?_, ?_⟩
    · rw [hhold, slice_eight_zero_toNat, decJoin_eq hs.acc_lt]
    · rw [hacc, hzero']
    · apply BitVec.eq_of_toNat_eq
      rw [hcnt, hzero']
      rfl
  · have hpos' : 0 < s.dec.cnt.toNat := Nat.pos_of_ne_zero fun h => hpos (BitVec.eq_of_toNat_eq h)
    have htwo : 8 * ((s.dec.cnt.toNat + 15) / 8) = 16 := by omega
    obtain ⟨hhold, hbytes⟩ := dataDec_of_cnt_pos hpos' sym
    refine ⟨⟨slice (decJoin s.dec sym) 0 8, ?_, ?_⟩, ?_, ?_, ?_⟩
    · rw [slice_eight_zero_toNat, decJoin_eq hs.acc_lt]
    · rw [hbytes, ← List.append_assoc]
      rfl
    · rw [hhold, slice_toNat, decJoin_eq hs.acc_lt]
    · rw [hacc, htwo]
    · rw [hcnt]
      omega

/-! ### Markers in RUN state -/

/-- A padding-shaped code point is refused when it is no marker, or has nothing to trim (60_exceptions.md R223). -/
theorem padRefused_deficit_iff (cp : CodePoint) (d : DecEngine) : padRefused ((cp.toNat : Int) - 0x62) d = true ↔
    ¬ (0x63 ≤ cp.toNat ∧ cp.toNat ≤ 0x71) ∨ (0x6A ≤ cp.toNat ∧ d.holdV = false) := by
  have hvalid : 1 ≤ (cp.toNat : Int) - 0x62 ∧ (cp.toNat : Int) - 0x62 ≤ 15 ↔ 0x63 ≤ cp.toNat ∧ cp.toNat ≤ 0x71 := by
    omega
  have htrim : 8 ≤ (cp.toNat : Int) - 0x62 ↔ 0x6A ≤ cp.toNat := by omega
  rw [padRefused_iff, hvalid, htrim]

/-- Settles O22: the deficit is in range, and a byte is there to trim when it has to be. -/
theorem decCpMarkerAccepted : Obligations.DecCpMarkerAccepted := by
  intro cp s hrun hcp
  have haccepted : ¬ padRefused ((cp.toNat : Int) - 0x62) s.dec = true := by
    rw [padRefused_deficit_iff, not_or, not_not]
    obtain ⟨hlo, hhi⟩ | ⟨hlo, hhi, hheld⟩ := hcp
    · exact ⟨by omega, fun h => by omega⟩
    · exact ⟨by omega, fun h => by rw [hheld] at h; cases h.2⟩
  rw [padRefused_iff] at haccepted
  have hdeficit : ((cp.toNat : Int) - 0x62).toNat = cp.toNat - 0x62 := by omega
  have htrim : 8 ≤ (cp.toNat : Int) - 0x62 ↔ ¬ cp.toNat ≤ 0x69 := by omega
  rw [exec_decCp_of_pad hrun (classify_of_le (by omega)), if_neg haccepted, hdeficit, ite_and]
  simp only [htrim, ite_not]
  rfl

/-- A code point that is no marker, or has nothing to trim, raises the error at its own position (60_exceptions.md R223 (a)
and (c)). -/
theorem raises_misplaced_of_run {cp : CodePoint} {d : DecEngine} (hrun : d.state = .run) (hcp : cp.toNat ≤ 0xFFF)
    (h : ¬ (0x63 ≤ cp.toNat ∧ cp.toNat ≤ 0x71) ∨ (0x6A ≤ cp.toNat ∧ d.holdV = false)) :
    Raises cp d .misplacedOrInvalidPadding d.pos cp :=
  .refusedMarker hrun (classify_of_le hcp) ((padRefused_deficit_iff cp d).2 h)

/-- The causes of MisplacedOrInvalidPadding on the code point's number. -/
theorem Raises.misplaced_cases {cp c : CodePoint} {d : DecEngine} {p : Pos}
    (h : Raises cp d .misplacedOrInvalidPadding p c) : d.state = .padded ∨
      d.state = .run ∧ cp.toNat ≤ 0xFFF ∧
        (¬ (0x63 ≤ cp.toNat ∧ cp.toNat ≤ 0x71) ∨ 0x6A ≤ cp.toNat ∧ d.holdV = false) := by
  cases h with
  | afterMarker hpadded => exact .inl hpadded
  | refusedMarker hrun hcp hk =>
    obtain ⟨hle, rfl⟩ := (classify_eq_pad_iff cp _).1 hcp
    exact .inr ⟨hrun, hle, (padRefused_deficit_iff cp d).1 hk⟩

/-- Settles O25: the three cases are causes of `Raises`, and by `exec_entersError` the error has no other. -/
theorem misplacedOrInvalidPaddingRaised : Obligations.MisplacedOrInvalidPaddingRaised := by
  refine ⟨fun cp s => ⟨fun hrun hcp hmarker => ?_, fun hpadded => ?_, fun hrun hlo hhi hheld => ?_⟩, ?_⟩
  · exact exec_decCp_of_raises (raises_misplaced_of_run hrun hcp (.inl hmarker))
  · exact exec_decCp_of_raises (.afterMarker hpadded)
  · exact exec_decCp_of_raises (raises_misplaced_of_run hrun (by omega) (.inr ⟨hlo, hheld⟩))
  · intro i s t h hs ht hkind
    obtain ⟨cp, kind, p, c, rfl, hraises, rfl⟩ := exec_entersError h hs ht
    obtain rfl : kind = .misplacedOrInvalidPadding := hkind
    exact ⟨cp, rfl, hraises.misplaced_cases⟩

end Sys2Proof.Machine
end

section
/-! What the commands of one engine keep from the other (10_state.md R20; 20_memory.md R60), what each command writes and
emits (43_control.md R192), the commands presented twice (20_memory.md R58), and the status read port (10_state.md R38). -/

namespace Sys2Proof.Machine

/-! ### Two engines -/

/-- Settles O40: what a command writes and emits is a function of its own engine's registers. -/
theorem enginesAreIndependent : Obligations.EnginesAreIndependent := by
  refine fun i s s' => ⟨fun hi henc => ?_, fun hi hdec => ?_⟩
  · exact ⟨_, _, encEmits i s.enc, exec_of_isEncoderCommand hi s, exec_of_isEncoderCommand hi s',
      congrArg (encAfter i) henc, rfl, by rw [henc], rfl, rfl, rfl, rfl⟩
  · exact ⟨_, _, decEmits i s.dec, respEmits i s.dec, exec_of_isDecoderCommand hi s, exec_of_isDecoderCommand hi s',
      congrArg (decAfter i) hdec, rfl, by rw [hdec], rfl, by rw [hdec], rfl, rfl, rfl⟩

/-- Settles O43: neither command writes what the other reads, so both orders answer the same state. -/
theorem encoderAndDecoderCommandsCommute : Obligations.EncoderAndDecoderCommandsCommute := by
  intro i j s hi hj
  calc andThen (exec i s) (exec j)
      = exec j { s with enc := encAfter i s.enc, encOut := s.encOut ++ encEmits i s.enc } := by
        rw [exec_of_isEncoderCommand hi, andThen]
    _ = exec i { s with dec := decAfter j s.dec, decOut := s.decOut ++ decEmits j s.dec,
                        decResp := s.decResp ++ respEmits j s.dec } := by
        rw [exec_of_isDecoderCommand hj, exec_of_isEncoderCommand hi]
    _ = andThen (exec j s) (exec i) := by rw [exec_of_isDecoderCommand hj, andThen]

/-! ### How much a command emits -/

theorem heldBytes_length_le (d : DecEngine) : (heldBytes d).length ≤ 1 := by
  rw [heldBytes]
  split
  · exact le_rfl
  · exact Nat.zero_le 1

theorem dataBytes_length_le (sym : Symbol) (d : DecEngine) : (dataBytes sym d).length ≤ 2 := by
  have hheld := heldBytes_length_le d
  rw [dataBytes, List.length_append]
  split
  · exact Nat.add_le_add_right hheld 1
  · exact Nat.le_succ_of_le hheld

theorem runBytes_length_le (cp : CodePoint) (d : DecEngine) : (runBytes cp d).length ≤ 2 := by
  cases hcp : classify cp with
  | invalid =>
    rw [runBytes_of_invalid hcp]
    exact Nat.zero_le 2
  | pad k =>
    rw [runBytes_of_pad hcp]
    split
    · exact Nat.zero_le 2
    · exact Nat.le_succ_of_le (heldBytes_length_le d)
  | data sym =>
    rw [runBytes_of_data hcp]
    exact dataBytes_length_le sym d

/-- Settles O41: the lists are those of Laws/Exec.lean, with their lengths. -/
theorem commandsWriteOnlyTheirOwn : Obligations.CommandsWriteOnlyTheirOwn := by
  intro i s t h
  obtain rfl := exec_eq_next_iff.1 h
  refine ⟨encEmits i s.enc, decEmits i s.dec, respEmits i s.dec, rfl, ?_⟩
  cases i with
  | nop => exact Host.Outcome.next.inj (h.symm.trans (exec_nop s))
  | encByte b =>
    refine ⟨rfl, ?_, rfl, rfl⟩
    rw [encEmits]
    split
    · exact le_rfl
    · exact Nat.zero_le 1
  | encEnd =>
    refine ⟨rfl, ?_, rfl, rfl⟩
    rw [encEmits]
    split
    · exact .inr rfl
    · exact .inl rfl
  | encClear => exact ⟨rfl, rfl, rfl, rfl⟩
  | decCp cp =>
    refine ⟨rfl, rfl, ?_, rfl⟩
    rw [decEmits]
    split
    · exact runBytes_length_le cp s.dec
    · exact Nat.zero_le 2
  | decEnd =>
    refine ⟨rfl, rfl, ?_, rfl⟩
    rw [decEmits]
    split
    · exact heldBytes_length_le s.dec
    · exact Nat.zero_le 1
  | decClear => exact ⟨rfl, rfl, rfl, rfl⟩

/-! ### Commands presented twice -/

theorem andThen_exec (i : Instr) (s : State) :
    andThen (exec i s) (exec i) = .next (afterCommand i (afterCommand i s)) := by
  rw [exec_next, andThen, exec_next]

/-- A command presented twice leaves what one leaves when its second presentation changes nothing. -/
theorem andThen_exec_eq_iff (i : Instr) (s : State) :
    andThen (exec i s) (exec i) = exec i s ↔ afterCommand i (afterCommand i s) = afterCommand i s := by
  rw [andThen_exec, exec_next, Host.Outcome.next.injEq]

/-- A stream that grows by `a` and then by `b` grows twice by the same elements when `b` is `a`. -/
theorem exists_appended_twice_iff {α : Type} (l a b : List α) :
    (∃ e, l ++ a = l ++ e ∧ (l ++ a) ++ b = (l ++ a) ++ e) ↔ b = a := by
  simp only [List.append_cancel_left_eq]
  exact ⟨fun ⟨_, ha, hb⟩ => hb.trans ha.symm, fun h => ⟨a, rfl, h⟩⟩

/-- Idempotent commands, on the engines' registers: the second writes the same registers and emits the same elements. -/
theorem idempotent_iff (i : Instr) : Idempotent i ↔ ∀ s : State,
    encAfter i (encAfter i s.enc) = encAfter i s.enc ∧ decAfter i (decAfter i s.dec) = decAfter i s.dec ∧
    encEmits i (encAfter i s.enc) = encEmits i s.enc ∧ decEmits i (decAfter i s.dec) = decEmits i s.dec ∧
    respEmits i (decAfter i s.dec) = respEmits i s.dec := by
  constructor
  · intro h s
    obtain ⟨henc, hdec, -, he, ho, hr⟩ := h s _ _ (exec_next i s) (exec_next i _)
    exact ⟨henc, hdec, (exists_appended_twice_iff _ _ _).1 he, (exists_appended_twice_iff _ _ _).1 ho,
      (exists_appended_twice_iff _ _ _).1 hr⟩
  · intro h s t u ht hu
    obtain rfl := exec_eq_next_iff.1 ht
    obtain rfl := exec_eq_next_iff.1 hu
    obtain ⟨henc, hdec, he, ho, hr⟩ := h s
    exact ⟨henc, hdec, rfl, (exists_appended_twice_iff _ _ _).2 he, (exists_appended_twice_iff _ _ _).2 ho,
      (exists_appended_twice_iff _ _ _).2 hr⟩

theorem idempotent_nop : Idempotent .nop := (idempotent_iff _).2 fun _ => ⟨rfl, rfl, rfl, rfl, rfl⟩
theorem idempotent_encClear : Idempotent .encClear := (idempotent_iff _).2 fun _ => ⟨rfl, rfl, rfl, rfl, rfl⟩
theorem idempotent_decClear : Idempotent .decClear := (idempotent_iff _).2 fun _ => ⟨rfl, rfl, rfl, rfl, rfl⟩

/-- Two bytes from reset: the first leaves 8 bits pending, the second one. -/
theorem not_idempotent_encByte : ¬ Idempotent (.encByte 0) := by
  intro h
  obtain ⟨henc, -⟩ := (idempotent_iff _).1 h State.reset
  exact absurd henc (by decide)

/-- One bit pending: the first ENC_END emits a symbol and a marker, the second nothing. -/
theorem not_idempotent_encEnd : ¬ Idempotent .encEnd := by
  intro h
  obtain ⟨-, -, hencOut, -⟩ := (idempotent_iff _).1 h { State.reset with enc := { acc := 1, cnt := 1 } }
  exact absurd hencOut (by decide)

/-- Two data code points from reset: the first moves DEC_POS to 1, the second to 2. -/
theorem not_idempotent_decCp : ¬ Idempotent (.decCp 0x8000) := by
  intro h
  obtain ⟨-, hdec, -⟩ := (idempotent_iff _).1 h State.reset
  exact absurd hdec (by decide)

/-- A byte held: the first DEC_END releases it, the second nothing. -/
theorem not_idempotent_decEnd : ¬ Idempotent .decEnd := by
  intro h
  obtain ⟨-, -, -, hdecOut, -⟩ :=
    (idempotent_iff _).1 h { State.reset with dec := { DecEngine.reset with hold := 1, holdV := true } }
  exact absurd hdecOut (by decide)

/-- The mnemonics of the idempotent commands (20_memory.md R58). -/
def idempotentMnemonics : List String := ["NOP", "ENC_CLEAR", "DEC_CLEAR"]

theorem idempotent_of_mnemonic {i : Instr} (h : mnemonicOf i ∈ idempotentMnemonics) : Idempotent i := by
  cases i with
  | nop => exact idempotent_nop
  | encClear => exact idempotent_encClear
  | decClear => exact idempotent_decClear
  | encByte b => exact absurd h (by decide : "ENC_BYTE" ∉ idempotentMnemonics)
  | encEnd => exact absurd h (by decide)
  | decCp cp => exact absurd h (by decide : "DEC_CP" ∉ idempotentMnemonics)
  | decEnd => exact absurd h (by decide)

/-- Every other row has a command that is not idempotent. -/
theorem exists_not_idempotent {row : OpcodeRow} (hrow : row ∈ opcodeMap) (h : row.mnemonic ∉ idempotentMnemonics) :
    ∃ i, mnemonicOf i = row.mnemonic ∧ ¬ Idempotent i := by
  simp only [opcodeMap, List.mem_cons, List.not_mem_nil, or_false] at hrow
  obtain rfl | rfl | rfl | rfl | rfl | rfl | rfl := hrow
  · exact absurd (by decide) h
  · exact ⟨_, rfl, not_idempotent_encByte⟩
  · exact ⟨_, rfl, not_idempotent_encEnd⟩
  · exact absurd (by decide) h
  · exact ⟨_, rfl, not_idempotent_decCp⟩
  · exact ⟨_, rfl, not_idempotent_decEnd⟩
  · exact absurd (by decide) h

/-- The commands of a row are all idempotent exactly in the rows NOP, ENC_CLEAR and DEC_CLEAR. -/
theorem idempotent_row_iff {row : OpcodeRow} (hrow : row ∈ opcodeMap) :
    (∀ i, mnemonicOf i = row.mnemonic → Idempotent i) ↔ row.mnemonic ∈ idempotentMnemonics := by
  refine ⟨fun h => ?_, fun h i hi => idempotent_of_mnemonic (hi ▸ h)⟩
  by_contra hname
  obtain ⟨i, hi, hnot⟩ := exists_not_idempotent hrow hname
  exact hnot (h i hi)

/-- ENC_BYTE never leaves ENC_CNT where it was: it goes up by 8, or down by 7. -/
theorem encAfter_encByte_cnt_ne (b : Byte) (e : EncEngine) : (encAfter (.encByte b) e).cnt ≠ e.cnt := by
  intro h
  have hcnt := congrArg BitVec.toNat h
  have hlt := e.cnt.isLt
  rw [encAfter] at hcnt
  split at hcnt
  all_goals
    rw [BitVec.toNat_ofNat] at hcnt
    omega

/-- A second ENC_END finds no bit pending. -/
theorem afterCommand_encEnd_twice (s : State) :
    afterCommand .encEnd (afterCommand .encEnd s) = afterCommand .encEnd s :=
  (exec_eq_next_iff.1 (exec_encEnd_of_reset (s := afterCommand .encEnd s) rfl)).symm

/-- An illegal word presented again finds ILLEGAL set. -/
theorem andThen_performWord_of_error {w : CmdWord} {e : DecodeError} (he : decode w = .error e) (s : State) :
    andThen (performWord w s) (performWord w) = performWord w s := by
  rw [performWord_of_error s he, andThen, performWord_of_error _ he]

theorem decAfter_decCp_of_data {cp : CodePoint} {sym : Symbol} (hcp : classify cp = .data sym) {d : DecEngine}
    (hrun : d.state = .run) : decAfter (.decCp cp) d = dataDec sym d := by
  rw [decAfter, hrun, ← runDec_of_data hcp]

/-- Settles O42: the rows by `idempotent_row_iff`. Presented twice, ENC_BYTE moves ENC_CNT again, DEC_END reports a second
token, and a data code point moves DEC_POS again. -/
theorem commandsPresentedTwice : Obligations.CommandsPresentedTwice := by
  refine ⟨fun _ hrow => idempotent_row_iff hrow, ?_, fun s => ?_, fun w s ⟨_, he⟩ => andThen_performWord_of_error he s,
    fun b s h => ?_, fun s h => ?_, fun cp sym s hrun hcp h => ?_⟩
  · intro i hi s
    simp only [List.mem_cons, List.not_mem_nil, or_false] at hi
    obtain rfl | rfl | rfl := hi
    all_goals rfl
  · exact (andThen_exec_eq_iff _ s).2 (afterCommand_encEnd_twice s)
  · have hsame := (andThen_exec_eq_iff _ s).1 h
    exact encAfter_encByte_cnt_ne b _ (congrArg (fun t => t.enc.cnt) hsame)
  · have hsame := congrArg State.decResp ((andThen_exec_eq_iff _ s).1 h)
    exact absurd (List.append_right_eq_self.1 hsame) (List.cons_ne_nil _ _)
  · have hsame := congrArg (fun t => t.dec.pos) ((andThen_exec_eq_iff _ s).1 h)
    have hrun' : (dataDec sym s.dec).state = .run := (dataDec_state sym s.dec).trans hrun
    simp only [afterCommand_dec, decAfter_decCp_of_data hcp hrun, decAfter_decCp_of_data hcp hrun', dataDec_pos] at hsame
    bv_omega

/-! ### The status read port -/

theorem extractLsb'_eq_of_toNat {n lo w : Nat} {x : BitVec n} {y : BitVec w} (h : x.toNat / 2 ^ lo % 2 ^ w = y.toNat) :
    x.extractLsb' lo w = y := by
  apply BitVec.eq_of_toNat_eq
  rw [BitVec.extractLsb'_toNat, Nat.shiftRight_eq_div_pow, h]

theorem getLsbD_eq_of_toNat {n k : Nat} {x : BitVec n} {b : Bool} (h : x.toNat / 2 ^ k % 2 = b.toNat) :
    x.getLsbD k = b := by
  rw [← BitVec.testBit_toNat, Nat.testBit_eq_decide_div_mod_eq, h]
  cases b <;> rfl

/-- STATUS as a number, field by field (10_state.md R38). -/
theorem statusWord_toNat (s : State) : (statusWord s).toNat =
    s.enc.cnt.toNat + 2 ^ 4 * s.dec.cnt.toNat + 2 ^ 7 * s.dec.holdV.toNat + 2 ^ 8 * (decStateCode s.dec.state).toNat +
      2 ^ 10 * (errKindCode s.dec.errKind).toNat + 2 ^ 12 * s.illegal.toNat := by
  rw [statusWord]
  simp only [toNat_append_eq, flagBit, BitVec.toNat_ofBool, BitVec.ofNat_eq_ofNat, BitVec.toNat_ofNat]
  omega

/-- The fields of STATUS, and its zero bits. -/
theorem statusWord_fields (s : State) :
    (statusWord s).extractLsb' 0 4 = s.enc.cnt ∧ (statusWord s).extractLsb' 4 3 = s.dec.cnt ∧
    (statusWord s).getLsbD 7 = s.dec.holdV ∧ (statusWord s).extractLsb' 8 2 = decStateCode s.dec.state ∧
    (statusWord s).extractLsb' 10 2 = errKindCode s.dec.errKind ∧ (statusWord s).getLsbD 12 = s.illegal ∧
    (statusWord s).extractLsb' 13 19 = 0#19 := by
  have hnum := statusWord_toNat s
  have hencCnt := s.enc.cnt.isLt
  have hdecCnt := s.dec.cnt.isLt
  have hholdV := s.dec.holdV.toNat_lt
  have hstate := (decStateCode s.dec.state).isLt
  have hkind := (errKindCode s.dec.errKind).isLt
  have hillegal := s.illegal.toNat_lt
  have hzero : (0#19).toNat = 0 := rfl
  refine ⟨extractLsb'_eq_of_toNat ?_, extractLsb'_eq_of_toNat ?_, getLsbD_eq_of_toNat ?_, extractLsb'_eq_of_toNat ?_,
    extractLsb'_eq_of_toNat ?_, getLsbD_eq_of_toNat ?_, extractLsb'_eq_of_toNat ?_⟩
  all_goals omega

/-- A register read in the low bits of a word, with zeros above. -/
theorem zero_append_toNat {m n : Nat} (x : BitVec n) : ((0 : BitVec m) ++ x).toNat = x.toNat := by
  rw [toNat_append_eq, BitVec.ofNat_eq_ofNat, BitVec.toNat_ofNat, Nat.zero_mod, Nat.zero_mul, Nat.zero_add]

/-- Settles O46: `statusWord_fields` for word 0, and the registers of the other seven as numbers. -/
theorem statusPortFields : Obligations.StatusPortFields := by
  intro s
  obtain ⟨hencCnt, hdecCnt, hholdV, hstate, hkind, hillegal, hzero⟩ := statusWord_fields s
  refine ⟨⟨hencCnt, hdecCnt, hholdV, ?_, ?_, hillegal, hzero⟩, zero_append_toNat s.enc.acc, ?_, rfl,
    zero_append_toNat s.dec.markD, rfl, rfl, zero_append_toNat s.dec.errCp⟩
  · rw [show readStatus s 0 = statusWord s from rfl, hstate]
    cases s.dec.state <;> rfl
  · rw [show readStatus s 0 = statusWord s from rfl, hkind]
    cases s.dec.errKind <;> rfl
  · rw [show readStatus s 2 = (0 : BitVec 16) ++ s.dec.hold ++ (0 : BitVec 1) ++ s.dec.acc from rfl]
    simp only [toNat_append_eq, BitVec.ofNat_eq_ofNat, BitVec.toNat_ofNat]
    omega

end Sys2Proof.Machine
end

section
/-! The encoder over whole streams: the words of other engines between do not matter (41_encoder.md R130; 10_state.md R20),
how far the output has come after part of a stream (R130; 10_state.md R29), and the marker of every input length
(41_encoder.md R127). -/

namespace Sys2Proof.Machine

/-! ### Words of one engine among others -/

/-- Words that neither show in a view of the state nor read past it can be left out of a run: if `view` is unchanged by every
word outside `p`, and what a word makes of it depends on it alone, the view after a run is that after the words of `p`. -/
theorem view_foldl_filter {α : Type} {view : State → α} {p : CmdWord → Bool}
    (hskip : ∀ w s, p w = false → view (afterWord w s) = view s)
    (hread : ∀ w s s', view s = view s' → view (afterWord w s) = view (afterWord w s')) (ws : List CmdWord) :
    ∀ {s s' : State}, view s = view s' → view (ws.foldl (fun s w => afterWord w s) s) =
      view ((ws.filter p).foldl (fun s w => afterWord w s) s') := by
  induction ws with
  | nil => exact fun h => h
  | cons w ws ih =>
    intro s s' h
    by_cases hw : p w = true
    · rw [List.filter_cons_of_pos hw, List.foldl_cons, List.foldl_cons]
      exact ih (hread w s s' h)
    · rw [List.filter_cons_of_neg hw, List.foldl_cons]
      exact ih ((hskip w s (Bool.not_eq_true _ ▸ hw)).trans h)

/-- What the encoder's words read and write. -/
def encoderView (s : State) : EncEngine × List CodeUnit := (s.enc, s.encOut)

/-- What the decoder's words read and write. -/
def decoderView (s : State) : DecEngine × List Byte × List Token := (s.dec, s.decOut, s.decResp)

theorem encAfter_of_not_isEncoderCommand {i : Instr} (hi : isEncoderCommand i = false) (e : EncEngine) :
    encAfter i e = e ∧ encEmits i e = [] := by
  cases i with
  | nop | decCp cp | decEnd | decClear => exact ⟨rfl, rfl⟩
  | encByte b | encEnd | encClear => cases hi

theorem decAfter_of_not_isDecoderCommand {i : Instr} (hi : isDecoderCommand i = false) (d : DecEngine) :
    decAfter i d = d ∧ decEmits i d = [] ∧ respEmits i d = [] := by
  cases i with
  | nop | encByte b | encEnd | encClear => exact ⟨rfl, rfl, rfl⟩
  | decCp cp | decEnd | decClear => cases hi

theorem isEncoderWord_of_ok {w : CmdWord} {i : Instr} (h : decode w = .ok i) : isEncoderWord w = isEncoderCommand i := by
  rw [isEncoderWord, h]

theorem isDecoderWord_of_ok {w : CmdWord} {i : Instr} (h : decode w = .ok i) : isDecoderWord w = isDecoderCommand i := by
  rw [isDecoderWord, h]

/-- A word that names no encoder command leaves the encoder and ENC_OUT. -/
theorem encoderView_afterWord_of_not {w : CmdWord} (hw : isEncoderWord w = false) (s : State) :
    encoderView (afterWord w s) = encoderView s := by
  cases hdecode : decode w with
  | error e => rw [afterWord_of_error hdecode]; rfl
  | ok i =>
    rw [isEncoderWord_of_ok hdecode] at hw
    obtain ⟨hafter, hemits⟩ := encAfter_of_not_isEncoderCommand hw s.enc
    rw [afterWord_of_ok hdecode, encoderView, afterCommand_enc, afterCommand_encOut, hafter, hemits, List.append_nil]
    rfl

/-- What a word makes of the encoder and ENC_OUT depends on them alone. -/
theorem encoderView_afterWord_congr (w : CmdWord) {s s' : State} (h : encoderView s = encoderView s') :
    encoderView (afterWord w s) = encoderView (afterWord w s') := by
  cases hdecode : decode w with
  | error e => rw [afterWord_of_error hdecode, afterWord_of_error hdecode]; exact h
  | ok i =>
    obtain ⟨henc, hout⟩ := Prod.mk.inj h
    rw [afterWord_of_ok hdecode, afterWord_of_ok hdecode]
    simp only [encoderView, afterCommand_enc, afterCommand_encOut, henc, hout]

/-- A word that names no decoder command leaves the decoder, DEC_OUT and DEC_RESP. -/
theorem decoderView_afterWord_of_not {w : CmdWord} (hw : isDecoderWord w = false) (s : State) :
    decoderView (afterWord w s) = decoderView s := by
  cases hdecode : decode w with
  | error e => rw [afterWord_of_error hdecode]; rfl
  | ok i =>
    rw [isDecoderWord_of_ok hdecode] at hw
    obtain ⟨hafter, hemits, hresp⟩ := decAfter_of_not_isDecoderCommand hw s.dec
    rw [afterWord_of_ok hdecode, decoderView, afterCommand_dec, afterCommand_decOut, afterCommand_decResp, hafter,
      hemits, hresp, List.append_nil, List.append_nil]
    rfl

/-- What a word makes of the decoder, DEC_OUT and DEC_RESP depends on them alone. -/
theorem decoderView_afterWord_congr (w : CmdWord) {s s' : State} (h : decoderView s = decoderView s') :
    decoderView (afterWord w s) = decoderView (afterWord w s') := by
  cases hdecode : decode w with
  | error e => rw [afterWord_of_error hdecode, afterWord_of_error hdecode]; exact h
  | ok i =>
    obtain ⟨hdec, hrest⟩ := Prod.mk.inj h
    obtain ⟨hout, hresp⟩ := Prod.mk.inj hrest
    rw [afterWord_of_ok hdecode, afterWord_of_ok hdecode]
    simp only [decoderView, afterCommand_dec, afterCommand_decOut, afterCommand_decResp, hdec, hout, hresp]

/-- A run of words does to the encoder what its encoder words do alone. -/
theorem encoderView_runWords_filter {ws : List CmdWord} {s u : State}
    (h : runWords (ws.filter isEncoderWord) s = .next u) :
    ∃ t, runWords ws s = .next t ∧ t.enc = u.enc ∧ t.encOut = u.encOut := by
  rw [runWords_next, Host.Outcome.next.injEq] at h
  have hview := view_foldl_filter (view := encoderView) (fun w s hw => encoderView_afterWord_of_not hw s)
    (fun w s s' => encoderView_afterWord_congr w) ws (rfl : encoderView s = encoderView s)
  rw [h] at hview
  exact ⟨_, runWords_next ws s, Prod.mk.inj hview⟩

/-- A run of words does to the decoder what its decoder words do alone. -/
theorem decoderView_runWords_filter {ws : List CmdWord} {s u : State}
    (h : runWords (ws.filter isDecoderWord) s = .next u) :
    ∃ t, runWords ws s = .next t ∧ t.dec = u.dec ∧ t.decOut = u.decOut ∧ t.decResp = u.decResp := by
  rw [runWords_next, Host.Outcome.next.injEq] at h
  have hview := view_foldl_filter (view := decoderView) (fun w s hw => decoderView_afterWord_of_not hw s)
    (fun w s s' => decoderView_afterWord_congr w) ws (rfl : decoderView s = decoderView s)
  rw [h] at hview
  obtain ⟨hdec, hrest⟩ := Prod.mk.inj hview
  exact ⟨_, runWords_next ws s, hdec, Prod.mk.inj hrest⟩

/-- Settles O48: the encoder words alone emit ENCODE (`runWords_encoderStream`), and the others do not matter. -/
theorem encoderImplementsEncode : Obligations.EncoderImplementsEncode := by
  intro bytes ws s henc hws
  have hstream := runWords_encoderStream bytes (henc ▸ EncEngine.legal_reset)
  rw [henc, unitsToCome_reset, ← hws] at hstream
  obtain ⟨t, hrun, henc', hout⟩ := encoderView_runWords_filter hstream
  exact ⟨t, hrun, hout, henc'⟩

/-! ### Part of an encoder stream -/

/-- The encoder registers after the bytes of part of a stream. -/
def encAfterBytes : List Byte → EncEngine → EncEngine
  | [], e => e
  | b :: bs, e => encAfterBytes bs (encAfter (.encByte b) e)

/-- What the bytes of part of a stream append to ENC_OUT. -/
def encEmitsBytes : List Byte → EncEngine → List CodeUnit
  | [], _ => []
  | b :: bs, e => encEmits (.encByte b) e ++ encEmitsBytes bs (encAfter (.encByte b) e)

/-- A command is performed, and the commands after it continue from the state it leaves. -/
theorem runCommands_cons {i : Instr} {s t : State} (h : exec i s = .next t) (is : List Instr) :
    runCommands (i :: is) s = runCommands is t := by
  rw [runCommands, h]
  rfl

theorem runCommands_encBytes (bytes : List Byte) : ∀ s : State, runCommands (bytes.map .encByte) s =
    .next { s with enc := encAfterBytes bytes s.enc, encOut := s.encOut ++ encEmitsBytes bytes s.enc } := by
  induction bytes with
  | nil =>
    intro s
    rw [encEmitsBytes, List.append_nil]
    rfl
  | cons b bs ih =>
    intro s
    rw [encEmitsBytes, ← List.append_assoc]
    exact (runCommands_cons (exec_of_isEncoderCommand rfl s) _).trans (ih _)

/-- The code units to come before part of a stream are those its bytes emit, and those to come after it. -/
theorem unitsToCome_append (done rest : List Byte) : ∀ {e : EncEngine}, e.Legal →
    unitsToCome e (done ++ rest) = encEmitsBytes done e ++ unitsToCome (encAfterBytes done e) rest := by
  induction done with
  | nil => exact fun _ => rfl
  | cons b bs ih =>
    intro e he
    rw [List.cons_append, unitsToCome_cons he, ih (encAfter_encByte_legal he b), encEmitsBytes, List.append_assoc]
    rfl

/-- A byte's bits make up whole symbols, which leave, and a rest, which stays (10_state.md R29). -/
theorem encByte_counts {e : EncEngine} (he : e.Legal) (b : Byte) :
    (encEmits (.encByte b) e).length = (e.cnt.toNat + 8) / 15 ∧
      (encAfter (.encByte b) e).cnt.toNat = (e.cnt.toNat + 8) % 15 := by
  have hcnt := he.cnt_le
  rw [encEmits]
  by_cases hc : 15 ≤ e.cnt.toNat + 8
  · rw [if_pos hc, (encAfter_encByte_of_le he b hc).2, List.length_singleton]
    omega
  · rw [if_neg hc, (encAfter_encByte_of_lt he b (by omega)).2, List.length_nil]
    omega

theorem encBytes_counts (bytes : List Byte) : ∀ {e : EncEngine}, e.Legal →
    (encEmitsBytes bytes e).length = (e.cnt.toNat + 8 * bytes.length) / 15 ∧
      (encAfterBytes bytes e).cnt.toNat = (e.cnt.toNat + 8 * bytes.length) % 15 := by
  induction bytes with
  | nil =>
    intro e he
    have hcnt := he.cnt_le
    rw [encEmitsBytes, encAfterBytes, List.length_nil, List.length_nil]
    omega
  | cons b bs ih =>
    intro e he
    obtain ⟨hone, hcnt⟩ := encByte_counts he b
    obtain ⟨hmany, hcnt'⟩ := ih (encAfter_encByte_legal he b)
    rw [encEmitsBytes, encAfterBytes, List.length_append, List.length_cons, hone, hmany, hcnt', hcnt]
    omega

/-- Settles O49: what the part emits is a prefix of the stream's ENCODE (`unitsToCome_append`), of the length
`encBytes_counts` gives. -/
theorem encoderEmitsPrefixes : Obligations.EncoderEmitsPrefixes := by
  intro done rest s henc
  obtain ⟨hlength, hcnt⟩ := encBytes_counts done EncEngine.legal_reset
  rw [show EncEngine.reset.cnt.toNat = 0 from rfl, Nat.zero_add] at hlength hcnt
  refine ⟨_, runCommands_encBytes done s, ?_, ?_⟩
  · rw [henc, ← unitsToCome_reset, unitsToCome_append done rest EncEngine.legal_reset, ← hlength, List.take_left]
  · rw [henc]
    exact hcnt

/-! ### The marker of a stream -/

/-- A stream that is not whole symbols ends in its marker. -/
theorem getLast?_encodeStream {bytes : List Byte} (h : 8 * bytes.length % 15 ≠ 0) :
    (encodeStream bytes).getLast? = some (marker (8 * bytes.length % 15)) := by
  rw [encodeStream, if_pos h, List.getLast?_concat]

/-- The table of 41_encoder.md R127, by the byte count's remainder. -/
theorem markerTable {n : Nat} (hn : n < 15) (h : n ≠ 0) : 0x71 - 8 * n % 15 =
    [0, 0x69, 0x70, 0x68, 0x6F, 0x67, 0x6E, 0x66, 0x6D, 0x65, 0x6C, 0x64, 0x6B, 0x63, 0x6A].getD n 0 := by
  revert n; decide

/-- Settles O55: the marker's number is a function of the bit count's remainder, and so of the byte count's. -/
theorem markerOfEveryLength : Obligations.MarkerOfEveryLength := by
  intro bytes h
  have hbits : 8 * bytes.length % 15 = 8 * (bytes.length % 15) % 15 := by omega
  rw [getLast?_encodeStream (by omega), Option.map_some, marker_toNat (by omega), hbits,
    markerTable (Nat.mod_lt _ (by decide)) h]

end Sys2Proof.Machine
end

section
/-! The decoder over whole streams: what a run of data code points leaves in the engine (10_state.md R31, R34) and in
DECODE's loop (42_decoder.md R156), step by step the same; a stream that fails (42_decoder.md R157, 20_memory.md R63); and the
number of bytes of every stream that decodes (42_decoder.md R154, R161). -/

namespace Sys2Proof.Machine

/-! ### Runs of commands and their words -/

/-- Running the words of commands is running the commands. -/
theorem runWords_map_encode (is : List Instr) : ∀ s : State, runWords (is.map encode) s = runCommands is s := by
  induction is with
  | nil => exact fun _ => rfl
  | cons i is ih =>
    intro s
    rw [List.map_cons, runWords_encode_cons (exec_next i s), runCommands_cons (exec_next i s), ih]

theorem runCommands_append {is : List Instr} : ∀ {s t : State}, runCommands is s = .next t → ∀ js : List Instr,
    runCommands (is ++ js) s = runCommands js t := by
  induction is with
  | nil => exact fun h js => congrArg (runCommands js) (Host.Outcome.next.inj h)
  | cons i is ih =>
    intro s t h js
    rw [runCommands_cons (exec_next i s)] at h
    rw [List.cons_append, runCommands_cons (exec_next i s), ih h]

/-- The words of a decoder stream are those of its code points' commands and DEC_END. -/
theorem runWords_decoderStreamWords (cps : List CodePoint) (s : State) :
    runWords (decoderStreamWords cps) s = runCommands (cps.map .decCp ++ [.decEnd]) s := by
  rw [← runWords_map_encode, List.map_append, List.map_map]
  rfl

/-! ### Data code points -/

/-- The data code points of symbols. -/
def dataCps (syms : List Symbol) : List CodePoint := syms.map fun y => (laneEnc y).setWidth 21

theorem dataCps_length (syms : List Symbol) : (dataCps syms).length = syms.length := List.length_map _

/-- The decoder registers after data code points in RUN state. -/
def decAfterData : List Symbol → DecEngine → DecEngine
  | [], d => d
  | y :: ys, d => decAfterData ys (dataDec y d)

/-- The bytes data code points in RUN state put on DEC_OUT. -/
def decEmitsData : List Symbol → DecEngine → List Byte
  | [], _ => []
  | y :: ys, d => dataBytes y d ++ decEmitsData ys (dataDec y d)

theorem runCommands_data (syms : List Symbol) : ∀ {s : State}, s.dec.state = .run →
    runCommands ((dataCps syms).map .decCp) s =
      .next { s with dec := decAfterData syms s.dec, decOut := s.decOut ++ decEmitsData syms s.dec } := by
  induction syms with
  | nil =>
    intro s _
    rw [decEmitsData, List.append_nil]
    rfl
  | cons y ys ih =>
    intro s hs
    have hexec := exec_decCp_of_run hs ((laneEnc y).setWidth 21)
    rw [runDec_of_data (classify_laneEnc y), runBytes_of_data (classify_laneEnc y)] at hexec
    rw [decEmitsData, ← List.append_assoc]
    exact (runCommands_cons hexec _).trans (ih ((dataDec_state y s.dec).trans hs))

/-- The words of a stream that begins with data code points: those are taken, and the stream continues. -/
theorem runWords_decoderStream_data (syms : List Symbol) (tail : List CodePoint) {s : State}
    (hs : s.dec.state = .run) : runWords (decoderStreamWords (dataCps syms ++ tail)) s =
      runWords (decoderStreamWords tail)
        { s with dec := decAfterData syms s.dec, decOut := s.decOut ++ decEmitsData syms s.dec } := by
  rw [runWords_decoderStreamWords, runWords_decoderStreamWords, List.map_append, List.append_assoc,
    runCommands_append (runCommands_data syms hs)]

/-- Data code points keep the decoder running. -/
theorem DecEngine.Running.dataStream (syms : List Symbol) : ∀ {d : DecEngine} {emitted : List Byte}, d.Running emitted →
    (decAfterData syms d).Running (emitted ++ decEmitsData syms d) := by
  induction syms with
  | nil =>
    intro d emitted h
    rw [decEmitsData, List.append_nil]
    exact h
  | cons y ys ih =>
    intro d emitted h
    rw [decEmitsData, ← List.append_assoc]
    exact ih (h.data y)

/-- DEC_POS counts the data code points modulo 2^32 (10_state.md R34). -/
theorem decAfterData_pos (syms : List Symbol) : ∀ d : DecEngine,
    (decAfterData syms d).pos = d.pos + BitVec.ofNat 32 syms.length := by
  induction syms with
  | nil => exact fun d => (BitVec.add_zero d.pos).symm
  | cons y ys ih =>
    intro d
    rw [decAfterData, ih, dataDec_pos, List.length_cons]
    bv_omega

/-- The remainder count after data code points, and the bytes emitted and held: the whole bytes of the bits before and the
15 bits of each (10_state.md R31). -/
theorem decAfterData_counts (syms : List Symbol) : ∀ {d : DecEngine}, d.acc.toNat < 2 ^ d.cnt.toNat →
    (decAfterData syms d).cnt.toNat = (d.cnt.toNat + 15 * syms.length) % 8 ∧
      (decEmitsData syms d ++ heldBytes (decAfterData syms d)).length =
        (heldBytes d).length + (d.cnt.toNat + 15 * syms.length) / 8 := by
  induction syms with
  | nil =>
    intro d _
    have hcnt := d.cnt.isLt
    rw [decEmitsData, decAfterData, List.length_nil, List.nil_append]
    omega
  | cons y ys ih =>
    intro d hacc
    obtain ⟨hcnt, hbytes⟩ := ih (dataDec_acc_lt hacc y)
    have hone := congrArg List.length (dataBytes_append_heldBytes y d)
    rw [symbolBytes, List.length_append, List.length_append, List.length_map, List.length_range] at hone
    rw [(dataDec_remainder hacc y).2] at hcnt hbytes
    rw [decEmitsData, decAfterData, List.append_assoc, List.length_append, List.length_cons, hcnt, hbytes]
    omega

/-- Settles O50: `decAfterData_counts` and `decAfterData_pos` from a cleared decoder. -/
theorem decoderCountsDataCodePoints : Obligations.DecoderCountsDataCodePoints := by
  intro syms s hs
  have hrun : s.dec.Running [] := hs ▸ DecEngine.running_reset
  have hexec := runCommands_data syms hrun.state
  rw [dataCps, List.map_map] at hexec
  refine ⟨_, hexec, ?_, ?_, (hrun.dataStream syms).state⟩
  · have hcnt := (decAfterData_counts syms hrun.acc_lt).1
    rw [hs] at hcnt ⊢
    rw [hcnt]
    exact congrArg (· % 8) (Nat.zero_add _)
  · rw [decAfterData_pos, hs]
    exact BitVec.zero_add _

/-! ### DECODE's loop on data code points -/

/-- DECODE's loop beside the engine: over data code points it takes the engine's registers to the engine's registers, and
its bytes are those emitted and held. -/
theorem decodeFrom_data_append (syms : List Symbol) (tail : List CodePoint) : ∀ {d : DecEngine} {emitted : List Byte}
    {i : Nat}, d.acc.toNat < 2 ^ d.cnt.toNat →
    decodeFrom i d.acc.toNat d.cnt.toNat (emitted ++ heldBytes d) (dataCps syms ++ tail) =
      decodeFrom (i + syms.length) (decAfterData syms d).acc.toNat (decAfterData syms d).cnt.toNat
        (emitted ++ decEmitsData syms d ++ heldBytes (decAfterData syms d)) tail := by
  induction syms with
  | nil =>
    intro d emitted i _
    rw [decEmitsData, List.append_nil]
    rfl
  | cons y ys ih =>
    intro d emitted i hacc
    obtain ⟨hacc', hcnt'⟩ := dataDec_remainder hacc y
    rw [dataCps, List.map_cons, List.cons_append, decodeFrom_of_data (classify_laneEnc y), List.append_assoc, ← decJoin,
      ← dataBytes_append_heldBytes, ← List.append_assoc, ← hacc', ← hcnt', ← dataCps, ih (dataDec_acc_lt hacc y),
      decEmitsData, List.length_cons, decAfterData]
    simp only [List.append_assoc, Nat.add_assoc, Nat.add_comm 1]

/-- The bytes that data code points complete from a cleared decoder. -/
def completedBytes (syms : List Symbol) : List Byte :=
  decEmitsData syms DecEngine.reset ++ heldBytes (decAfterData syms DecEngine.reset)

theorem completedBytes_length (syms : List Symbol) : (completedBytes syms).length = 15 * syms.length / 8 := by
  have hbytes := (decAfterData_counts syms DecEngine.running_reset.acc_lt).2
  rw [completedBytes, hbytes]
  simp [DecEngine.reset, heldBytes]

/-- DECODE over data code points from the start of a stream. -/
theorem decodeStream_data_append (syms : List Symbol) (tail : List CodePoint) : ∃ acc cnt,
    decodeStream (dataCps syms ++ tail) = decodeFrom syms.length acc cnt (completedBytes syms) tail := by
  have hdata := decodeFrom_data_append syms tail (emitted := []) (i := 0) DecEngine.running_reset.acc_lt
  rw [Nat.zero_add, List.nil_append, List.nil_append] at hdata
  exact ⟨_, _, hdata⟩

theorem decodeStream_data (syms : List Symbol) : decodeStream (dataCps syms) = .ok (completedBytes syms) := by
  obtain ⟨acc, cnt, hdata⟩ := decodeStream_data_append syms []
  rw [List.append_nil] at hdata
  rw [hdata]
  rfl

/-! ### Streams that decode -/

/-- Data code points and a marker decode when the marker is valid and has a byte to trim or needs none. -/
theorem decodeStream_data_marker_eq_ok_iff {syms : List Symbol} {c : CodePoint} {k : Int} (hc : classify c = .pad k)
    {out : List Byte} : decodeStream (dataCps syms ++ [c]) = .ok out ↔
      (markerValid k = true ∧ (padTrim k = true → completedBytes syms ≠ [])) ∧
        out = if padTrim k then (completedBytes syms).dropLast else completedBytes syms := by
  obtain ⟨acc, cnt, hdata⟩ := decodeStream_data_append syms [c]
  rw [hdata, decodeFrom_eq_ok_iff_of_pad hc, eq_self, true_and]

/-- Symbols complete a byte as soon as there is one. -/
theorem completedBytes_ne_nil_iff (syms : List Symbol) : completedBytes syms ≠ [] ↔ syms ≠ [] := by
  rw [← List.length_pos_iff, ← List.length_pos_iff, completedBytes_length]
  omega

theorem trimmedBytes_length (syms : List Symbol) (k : Int) :
    (if padTrim k then (completedBytes syms).dropLast else completedBytes syms).length =
      15 * syms.length / 8 - if 8 ≤ k then 1 else 0 := by
  have htrim := padTrim_iff k
  by_cases hk : 8 ≤ k
  · rw [if_pos (htrim.2 hk), if_pos hk, List.length_dropLast, completedBytes_length]
  · rw [if_neg (htrim.not.2 hk), if_neg hk, completedBytes_length, Nat.sub_zero]

/-- Settles O60: `decodeStream_data`, and a marker by its deficit. -/
theorem decoderAcceptsUncheckedInput : Obligations.DecoderAcceptsUncheckedInput := by
  refine fun syms => ⟨⟨_, decodeStream_data syms, completedBytes_length syms⟩, fun cp hlo hhi hsyms => ?_⟩
  have hvalid : markerValid ((cp.toNat : Int) - 0x62) = true := (markerValid_iff _).2 (by omega)
  have htrim : 8 ≤ (cp.toNat : Int) - 0x62 ↔ 0x6A ≤ cp.toNat := by omega
  refine ⟨_, (decodeStream_data_marker_eq_ok_iff (classify_of_le (by omega))).2 ⟨⟨hvalid, fun hk => ?_⟩, rfl⟩, ?_⟩
  · exact (completedBytes_ne_nil_iff syms).2 (hsyms (htrim.1 ((padTrim_iff _).1 hk)))
  · simp only [trimmedBytes_length, htrim]

/-- What DECODE accepts: data code points, and after them at most one marker. -/
theorem shape_of_decodeFrom_eq_ok (cps : List CodePoint) : ∀ {i acc cnt : Nat} {before out : List Byte},
    decodeFrom i acc cnt before cps = .ok out →
    ∃ syms, cps = dataCps syms ∨ ∃ c k, cps = dataCps syms ++ [c] ∧ classify c = .pad k := by
  induction cps with
  | nil => exact fun _ => ⟨[], .inl rfl⟩
  | cons c rest ih =>
    intro i acc cnt before out h
    cases hc : classify c with
    | invalid =>
      rw [decodeFrom_of_invalid hc] at h
      cases h
    | pad k =>
      obtain ⟨⟨rfl, -⟩, -⟩ := (decodeFrom_eq_ok_iff_of_pad hc).1 h
      exact ⟨[], .inr ⟨c, k, rfl, hc⟩⟩
    | data sym =>
      rw [decodeFrom_of_data hc] at h
      obtain rfl := eq_laneEnc_of_classify_eq_data hc
      obtain ⟨syms, rfl | ⟨c, k, rfl, hpad⟩⟩ := ih h
      · exact ⟨sym :: syms, .inl rfl⟩
      · exact ⟨sym :: syms, .inr ⟨c, k, rfl, hpad⟩⟩

/-! ### Streams that fail -/

/-- After an error the code points to come are ignored, and DEC_END reports the record (60_exceptions.md R225). -/
theorem runWords_decoderStream_of_error (cps : List CodePoint) : ∀ {s : State}, s.dec.state = .error →
    runWords (decoderStreamWords cps) s = .next { s with
      dec := DecEngine.reset, decResp := s.decResp ++ [.err s.dec.errKind s.dec.errPos s.dec.errCp] } := by
  induction cps with
  | nil => exact fun hs => runWords_encode_cons (exec_decEnd_of_error hs) []
  | cons c rest ih => exact fun hs => (runWords_encode_cons (exec_decCp_of_error hs c) _).trans (ih hs)

/-- A code point that raises decides the stream, whatever follows it (20_memory.md R63). -/
theorem runWords_decoderStream_of_raises {s : State} {cp c : CodePoint} {kind : ErrKind} {p : Pos}
    (h : Raises cp s.dec kind p c) (rest : List CodePoint) : runWords (decoderStreamWords (cp :: rest)) s =
      .next { s with dec := DecEngine.reset, decResp := s.decResp ++ [.err kind p c] } :=
  (runWords_encode_cons (exec_decCp_of_raises h) _).trans (runWords_decoderStream_of_error rest rfl)

/-- The completed bytes but the held one are those emitted. -/
theorem DecEngine.Running.dropLast_append_heldBytes {d : DecEngine} {emitted : List Byte} (h : d.Running emitted) :
    (emitted ++ heldBytes d).dropLast = emitted := by
  cases hv : d.holdV with
  | false => simp [h.emitted_nil hv, heldBytes, hv]
  | true => simp [heldBytes, hv]

/-- Settles O59: the data code points emit all they complete but the held byte, and the invalid one raises. -/
theorem failedStreamKeepsReleasedBytes : Obligations.FailedStreamKeepsReleasedBytes := by
  intro syms bad rest s hs hbad
  have hrun : (decAfterData syms DecEngine.reset).Running (decEmitsData syms DecEngine.reset) :=
    DecEngine.running_reset.dataStream syms
  have hstream := (runWords_decoderStream_data syms (bad :: rest) (s := s) (hs ▸ rfl)).trans
    (runWords_decoderStream_of_raises (.invalidLane (hs ▸ hrun.state) hbad) rest)
  refine ⟨completedBytes syms, _, decodeStream_data syms, hstream, ?_, ?_⟩
  · rw [completedBytes, hrun.dropLast_append_heldBytes, hs]
  · rw [decAfterData_pos, hs]
    exact congrArg (fun p => s.decResp ++ [Token.err .invalidLane p bad]) (BitVec.zero_add _)

/-! ### DECODE's errors through the machine -/

/-- A padding-shaped code point at which DECODE fails: its error, and why it was no accepted end. -/
theorem decodeFrom_eq_error_of_pad {c : CodePoint} {k : Int} (hc : classify c = .pad k) {i acc cnt : Nat}
    {out : List Byte} {rest : List CodePoint} {e : FormatError} (h : decodeFrom i acc cnt out (c :: rest) = .error e) :
    e = ⟨.misplacedOrInvalidPadding, i, c⟩ ∧ (rest ≠ [] ∨ markerValid k = false ∨ (padTrim k = true ∧ out = [])) := by
  rw [decodeFrom, hc] at h
  dsimp only at h
  split at h
  · exact ⟨(Except.error.inj h).symm, ‹_›⟩
  · cases h

/-- DECODE fails at a code point of its input. -/
theorem pos_lt_of_decodeFrom_eq_error (cps : List CodePoint) : ∀ {i acc cnt : Nat} {out : List Byte} {e : FormatError},
    decodeFrom i acc cnt out cps = .error e → e.pos < i + cps.length := by
  induction cps with
  | nil => exact fun h => nomatch h
  | cons c rest ih =>
    intro i acc cnt out e h
    rw [List.length_cons]
    cases hc : classify c with
    | invalid =>
      rw [decodeFrom_of_invalid hc] at h
      obtain rfl := Except.error.inj h
      exact Nat.lt_add_of_pos_right (Nat.succ_pos _)
    | pad k =>
      obtain ⟨rfl, -⟩ := decodeFrom_eq_error_of_pad hc h
      exact Nat.lt_add_of_pos_right (Nat.succ_pos _)
    | data sym =>
      rw [decodeFrom_of_data hc] at h
      have hpos := ih h
      omega

/-- The code point of an accepted marker is kept in its deficit (42_decoder.md R152). -/
theorem markerCp_of_classify {c : CodePoint} {k : Int} (hc : classify c = .pad k) (hk : 1 ≤ k ∧ k ≤ 15) :
    markerCp (BitVec.ofInt 4 k) = c := by
  obtain ⟨-, rfl⟩ := (classify_eq_pad_iff c k).1 hc
  apply BitVec.eq_of_toNat_eq
  rw [markerCp, markD_toNat hk, baseChar, BitVec.toNat_ofNat]
  omega

/-- A marker the engine takes in RUN state is followed by a code point, when DECODE fails at it: that code point raises the
marker's error, at the marker's position. -/
theorem runWords_decoderStream_of_misplaced {s : State} {c c' : CodePoint} {k : Int} (hs : s.dec.state = .run)
    (hc : classify c = .pad k) (hk : padRefused k s.dec = false) (rest : List CodePoint) :
    runWords (decoderStreamWords (c :: c' :: rest)) s = .next { s with
      dec := DecEngine.reset, decOut := s.decOut ++ if padTrim k then [] else heldBytes s.dec,
      decResp := s.decResp ++ [.err .misplacedOrInvalidPadding s.dec.pos c] } := by
  have hvalid : 1 ≤ k ∧ k ≤ 15 := by
    have haccepted := (padRefused_iff k s.dec).not.1 (Bool.eq_false_iff.1 hk)
    rw [not_or, not_not] at haccepted
    exact haccepted.1
  have hraises : Raises c' (paddedDec k s.dec) .misplacedOrInvalidPadding s.dec.pos c := by
    conv => arg 5; rw [← markerCp_of_classify hc hvalid]
    exact .afterMarker rfl
  exact (runWords_encode_cons (exec_decCp_of_accepted hs hc hk) _).trans
    (runWords_decoderStream_of_raises hraises rest)

/-- The words of a decoder stream at which DECODE fails, above the remainder and the bytes the decoder has: the error's
token, its position modulo 2^32, and the bytes released before it. -/
theorem runWords_decoderStream_of_fail (cps : List CodePoint) : ∀ {s : State} {i : Nat} {emitted : List Byte}
    {e : FormatError}, s.dec.Running emitted → s.dec.pos = BitVec.ofNat 32 i →
    decodeFrom i s.dec.acc.toNat s.dec.cnt.toNat (emitted ++ heldBytes s.dec) cps = .error e →
    ∃ released, runWords (decoderStreamWords cps) s = .next { s with
      dec := DecEngine.reset, decOut := s.decOut ++ released,
      decResp := s.decResp ++ [.err e.kind (BitVec.ofNat 32 e.pos) e.cp] } := by
  induction cps with
  | nil => exact fun _ _ h => nomatch h
  | cons c rest ih =>
    intro s i emitted e hrun hpos hdecode
    cases hc : classify c with
    | invalid =>
      rw [decodeFrom_of_invalid hc] at hdecode
      obtain rfl := Except.error.inj hdecode
      refine ⟨[], ?_⟩
      rw [List.append_nil, ← hpos]
      exact runWords_decoderStream_of_raises (.invalidLane hrun.state hc) rest
    | pad k =>
      obtain ⟨rfl, hwhy⟩ := decodeFrom_eq_error_of_pad hc hdecode
      rw [hrun.append_heldBytes_eq_nil_iff] at hwhy
      cases hk : padRefused k s.dec with
      | true =>
        refine ⟨[], ?_⟩
        rw [List.append_nil, ← hpos]
        exact runWords_decoderStream_of_raises (.refusedMarker hrun.state hc hk) rest
      | false =>
        have hrest : rest ≠ [] := by
          rw [padRefused, Bool.or_eq_false_iff, Bool.not_eq_false', Bool.and_eq_false_imp] at hk
          obtain hrest | hvalid | ⟨htrim, hheld⟩ := hwhy
          · exact hrest
          · exact absurd hk.1 (Bool.eq_false_iff.1 hvalid)
          · exact absurd (hk.2 htrim) (by simp [hheld])
        obtain ⟨c', rest', rfl⟩ := List.exists_cons_of_ne_nil hrest
        refine ⟨if padTrim k then [] else heldBytes s.dec, ?_⟩
        rw [← hpos]
        exact runWords_decoderStream_of_misplaced hrun.state hc hk rest'
    | data sym =>
      obtain ⟨hacc, hcnt⟩ := dataDec_remainder hrun.acc_lt sym
      have hexec := exec_decCp_of_run hrun.state c
      rw [runDec_of_data hc, runBytes_of_data hc] at hexec
      rw [decodeFrom_of_data hc, List.append_assoc, ← decJoin, ← dataBytes_append_heldBytes, ← List.append_assoc,
        ← hacc, ← hcnt] at hdecode
      have hpos' : (dataDec sym s.dec).pos = BitVec.ofNat 32 (i + 1) := by
        rw [dataDec_pos, hpos]
        bv_omega
      obtain ⟨released, hstream⟩ := ih (s := { s with
        dec := dataDec sym s.dec, decOut := s.decOut ++ dataBytes sym s.dec }) (hrun.data sym) hpos' hdecode
      refine ⟨dataBytes sym s.dec ++ released, ?_⟩
      rw [← List.append_assoc]
      exact (runWords_encode_cons hexec _).trans hstream

/-- Settles O51: the decoder words alone, by DECODE's answer; the others do not matter. -/
theorem decoderImplementsDecode : Obligations.DecoderImplementsDecode := by
  intro cps ws s hs hlength hws
  cases hdecode : decodeStream cps with
  | ok out =>
    have hstream := runWords_decoderStream_of_reset hs hdecode
    rw [← hws] at hstream
    obtain ⟨t, hrun, hdec, hout, hresp⟩ := decoderView_runWords_filter hstream
    exact ⟨t, hrun, hdec, hout, hresp⟩
  | error e =>
    have hbound := pos_lt_of_decodeFrom_eq_error cps hdecode
    obtain ⟨released, hstream⟩ := runWords_decoderStream_of_fail cps (s := s) (i := 0) (emitted := []) (e := e)
      (hs ▸ DecEngine.running_reset) (hs ▸ rfl) (hs ▸ hdecode)
    rw [← hws] at hstream
    obtain ⟨t, hrun, hdec, hout, hresp⟩ := decoderView_runWords_filter hstream
    refine ⟨t, hrun, hdec, hout ▸ List.prefix_append _ _, BitVec.ofNat 32 e.pos, ?_, hresp⟩
    rw [BitVec.toNat_ofNat, Nat.mod_eq_of_lt (by omega)]

end Sys2Proof.Machine
end

section
/-! The UTF-8 wire adapter: the parser reads back every scalar value in each of the four forms (45_wire_adapter.md R200,
R202), so it reads back the wire form of an encoding (R201, R204); and the length predictors (R205, R206) against the
transforms and the wire form. -/

namespace Sys2Proof.Machine

/-! ### The bytes of a UTF-8 form as numbers -/

/-- A byte of a UTF-8 form is its lead and the bits below it. -/
theorem utf8Byte_toNat {lead : Byte} {bits : Nat} (hbits : bits ≤ 8) (hlead : 2 ^ bits ∣ lead.toNat) (cp : CodePoint)
    (lo : Nat) : (utf8Byte lead cp lo bits).toNat = lead.toNat + cp.toNat / 2 ^ lo % 2 ^ bits := by
  have hlow : cp.toNat / 2 ^ lo % 2 ^ bits < 2 ^ bits := Nat.mod_lt _ (Nat.two_pow_pos bits)
  have hfits : cp.toNat / 2 ^ lo % 2 ^ bits < 2 ^ 8 := hlow.trans_le (Nat.pow_le_pow_right (by decide) hbits)
  obtain ⟨high, hhigh⟩ := hlead
  rw [utf8Byte, BitVec.toNat_or, BitVec.toNat_ofNat, Nat.shiftRight_eq_div_pow, Nat.mod_eq_of_lt hfits, hhigh,
    Nat.two_pow_add_eq_or_of_lt hlow]

/-- A continuation byte carries six bits. -/
theorem contByte_toNat (cp : CodePoint) (lo : Nat) : (utf8Byte 0x80 cp lo 6).toNat = 0x80 + cp.toNat / 2 ^ lo % 64 :=
  utf8Byte_toNat (by decide) (by decide) cp lo

theorem isCont_iff (x : Byte) : isCont x = true ↔ 0x80 ≤ x.toNat ∧ x.toNat < 0xC0 := by
  revert x; decide

theorem isCont_contByte (cp : CodePoint) (lo : Nat) : isCont (utf8Byte 0x80 cp lo 6) = true := by
  rw [isCont_iff, contByte_toNat]
  omega

/-- The parser takes a continuation byte's six bits. -/
theorem pushCont_contByte (hi : Nat) (cp : CodePoint) (lo : Nat) :
    pushCont hi (utf8Byte 0x80 cp lo 6) = hi * 64 + cp.toNat / 2 ^ lo % 64 := by
  rw [pushCont, contByte_toNat]
  omega

/-! ### The unit at the head of a form -/

/-- A scalar value: a code point up to U+10FFFF that is no surrogate. -/
def isScalar (c : CodePoint) : Prop := c.toNat ≤ 0x10FFFF ∧ ¬ (0xD800 ≤ c.toNat ∧ c.toNat ≤ 0xDFFF)

/-- `ReadsBack c form`: at the head of any bytes that begin with `form`, the parser finds the code point `c` and takes the
whole form. -/
def ReadsBack (c : CodePoint) (form : List Byte) : Prop :=
  ∃ b tail, form = b :: tail ∧ ∀ rest, utf8Unit b (tail ++ rest) = (c, tail.length)

theorem ofNat_toNat_codePoint (c : CodePoint) : BitVec.ofNat 21 c.toNat = c :=
  (BitVec.ofNat_toNat 21 c).trans (BitVec.setWidth_eq c)

theorem readsBack_one {c : CodePoint} (h : c.toNat < 0x80) : ReadsBack c [utf8Byte 0x00 c 0 7] := by
  have hbyte : (utf8Byte 0x00 c 0 7).toNat = c.toNat := by
    rw [utf8Byte_toNat (by decide) (by decide)]
    simp only [BitVec.ofNat_eq_ofNat, BitVec.toNat_ofNat]
    omega
  refine ⟨_, [], rfl, fun rest => ?_⟩
  rw [utf8Unit, hbyte, if_pos h]
  refine congrArg (·, 0) (BitVec.eq_of_toNat_eq ?_)
  rw [BitVec.toNat_setWidth_of_le (by decide), hbyte]

theorem readsBack_two {c : CodePoint} (hlo : 0x80 ≤ c.toNat) (hhi : c.toNat < 0x800) :
    ReadsBack c [utf8Byte 0xC0 c 6 5, utf8Byte 0x80 c 0 6] := by
  have hlead : (utf8Byte 0xC0 c 6 5).toNat = 0xC0 + c.toNat / 2 ^ 6 % 2 ^ 5 :=
    utf8Byte_toNat (by decide) (by decide) c 6
  refine ⟨_, _, rfl, fun rest => ?_⟩
  have htwo : utf8Two (utf8Byte 0xC0 c 6 5) (utf8Byte 0x80 c 0 6 :: rest) = some c.toNat := by
    rw [utf8Two, if_pos ⟨by omega, by omega, isCont_contByte c 0⟩, pushCont_contByte]
    congr 1
    omega
  rw [List.singleton_append, utf8Unit, if_neg (by omega), htwo]
  exact congrArg (·, 1) (ofNat_toNat_codePoint c)

theorem readsBack_three {c : CodePoint} (hlo : 0x800 ≤ c.toNat) (hhi : c.toNat < 0x10000)
    (hscalar : ¬ (0xD800 ≤ c.toNat ∧ c.toNat ≤ 0xDFFF)) :
    ReadsBack c [utf8Byte 0xE0 c 12 4, utf8Byte 0x80 c 6 6, utf8Byte 0x80 c 0 6] := by
  have hlead : (utf8Byte 0xE0 c 12 4).toNat = 0xE0 + c.toNat / 2 ^ 12 % 2 ^ 4 :=
    utf8Byte_toNat (by decide) (by decide) c 12
  have hvalue : pushCont (pushCont ((utf8Byte 0xE0 c 12 4).toNat % 16) (utf8Byte 0x80 c 6 6)) (utf8Byte 0x80 c 0 6) =
      c.toNat := by
    rw [pushCont_contByte, pushCont_contByte]
    omega
  refine ⟨_, _, rfl, fun rest => ?_⟩
  have htwo : utf8Two (utf8Byte 0xE0 c 12 4) ([utf8Byte 0x80 c 6 6, utf8Byte 0x80 c 0 6] ++ rest) = none := by
    rw [List.cons_append, utf8Two, if_neg (by omega)]
  have hthree : utf8Three (utf8Byte 0xE0 c 12 4) ([utf8Byte 0x80 c 6 6, utf8Byte 0x80 c 0 6] ++ rest) =
      some c.toNat := by
    rw [List.cons_append, List.cons_append, utf8Three, hvalue]
    exact if_pos ⟨by omega, by omega, isCont_contByte c 6, isCont_contByte c 0, hlo, hscalar⟩
  rw [utf8Unit, if_neg (by omega), htwo, hthree]
  exact congrArg (·, 2) (ofNat_toNat_codePoint c)

theorem readsBack_four {c : CodePoint} (hlo : 0x10000 ≤ c.toNat) (hhi : c.toNat ≤ 0x10FFFF) :
    ReadsBack c [utf8Byte 0xF0 c 18 3, utf8Byte 0x80 c 12 6, utf8Byte 0x80 c 6 6, utf8Byte 0x80 c 0 6] := by
  have hlead : (utf8Byte 0xF0 c 18 3).toNat = 0xF0 + c.toNat / 2 ^ 18 % 2 ^ 3 :=
    utf8Byte_toNat (by decide) (by decide) c 18
  have hvalue : pushCont (pushCont (pushCont ((utf8Byte 0xF0 c 18 3).toNat % 8) (utf8Byte 0x80 c 12 6))
      (utf8Byte 0x80 c 6 6)) (utf8Byte 0x80 c 0 6) = c.toNat := by
    rw [pushCont_contByte, pushCont_contByte, pushCont_contByte]
    omega
  refine ⟨_, _, rfl, fun rest => ?_⟩
  have htwo : utf8Two (utf8Byte 0xF0 c 18 3)
      ([utf8Byte 0x80 c 12 6, utf8Byte 0x80 c 6 6, utf8Byte 0x80 c 0 6] ++ rest) = none := by
    rw [List.cons_append, utf8Two, if_neg (by omega)]
  have hthree : utf8Three (utf8Byte 0xF0 c 18 3)
      ([utf8Byte 0x80 c 12 6, utf8Byte 0x80 c 6 6, utf8Byte 0x80 c 0 6] ++ rest) = none := by
    rw [List.cons_append, List.cons_append, utf8Three]
    exact if_neg (by omega)
  have hfour : utf8Four (utf8Byte 0xF0 c 18 3)
      ([utf8Byte 0x80 c 12 6, utf8Byte 0x80 c 6 6, utf8Byte 0x80 c 0 6] ++ rest) = some c.toNat := by
    rw [List.cons_append, List.cons_append, List.cons_append, utf8Four, hvalue]
    exact if_pos ⟨by omega, by omega, isCont_contByte c 12, isCont_contByte c 6, isCont_contByte c 0, hlo, hhi⟩
  rw [utf8Unit, if_neg (by omega), htwo, hthree, hfour]
  exact congrArg (·, 3) (ofNat_toNat_codePoint c)

/-- The parser reads back the form of every scalar value. -/
theorem readsBack_utf8Enc {c : CodePoint} (hc : isScalar c) : ReadsBack c (utf8Enc c) := by
  rw [utf8Enc]
  split_ifs with hone htwo hthree
  · exact readsBack_one hone
  · exact readsBack_two (Nat.le_of_not_lt hone) htwo
  · exact readsBack_three (Nat.le_of_not_lt htwo) hthree hc.2
  · exact readsBack_four (Nat.le_of_not_lt hthree) hc.1

/-! ### The parser -/

/-- The rest of a unit is passed over. -/
theorem utf8ParseSkip_append (tail rest : List Byte) : utf8ParseSkip tail.length (tail ++ rest) = utf8Parse rest := by
  induction tail with
  | nil => rfl
  | cons x xs ih => exact ih

theorem ReadsBack.utf8Parse_append {c : CodePoint} {form : List Byte} (h : ReadsBack c form) (rest : List Byte) :
    utf8Parse (form ++ rest) = c :: utf8Parse rest := by
  obtain ⟨b, tail, rfl, hunit⟩ := h
  rw [List.cons_append, utf8Parse, utf8ParseSkip, hunit, utf8ParseSkip_append]

/-- The parser gives back scalar values from their forms. -/
theorem utf8Parse_flatMap_utf8Enc {cps : List CodePoint} (h : ∀ c ∈ cps, isScalar c) :
    utf8Parse (cps.flatMap utf8Enc) = cps := by
  induction cps with
  | nil => rfl
  | cons c cps ih =>
    obtain ⟨hc, hcps⟩ := List.forall_mem_cons.1 h
    rw [List.flatMap_cons, (readsBack_utf8Enc hc).utf8Parse_append, ih hcps]

/-- Settles O58: `utf8Parse_flatMap_utf8Enc`, where `isScalar` is the statement's hypothesis. -/
theorem utf8ParseInvertsUtf8Enc : Obligations.Utf8ParseInvertsUtf8Enc := fun _ => utf8Parse_flatMap_utf8Enc

/-! ### The wire form of an encoding -/

/-- A code unit at the decoder's input width is the same number. -/
theorem setWidth_codePoint_toNat (c : CodeUnit) : (c.setWidth 21).toNat = c.toNat :=
  BitVec.toNat_setWidth_of_le (by decide)

/-- An encoding holds data code points and the encoder's markers only (10_state.md R42). -/
theorem encodeStream_units (bytes : List Byte) :
    ∀ c ∈ encodeStream bytes, isDataUnit c = true ∨ isEncoderMarker c = true := by
  rw [encodeStream, List.forall_mem_append]
  refine ⟨List.forall_mem_map.2 fun k _ => .inl (isDataUnit_laneEnc _), fun c hc => ?_⟩
  rw [List.mem_ite_nil_right, List.mem_singleton] at hc
  obtain ⟨hpartial, rfl⟩ := hc
  exact .inr (isEncoderMarker_marker (by omega) (by omega))

theorem isScalar_of_unit {c : CodeUnit} (h : isDataUnit c = true ∨ isEncoderMarker c = true) :
    isScalar (c.setWidth 21) := by
  rw [isDataUnit_iff, isEncoderMarker_iff] at h
  rw [isScalar, setWidth_codePoint_toNat]
  omega

theorem wireEncode_eq_flatMap (bytes : List Byte) :
    wireEncode bytes = ((encodeStream bytes).map (·.setWidth 21)).flatMap utf8Enc := by
  rw [List.flatMap_map, wireEncode]

theorem utf8Parse_wireEncode (bytes : List Byte) :
    utf8Parse (wireEncode bytes) = (encodeStream bytes).map (·.setWidth 21) := by
  rw [wireEncode_eq_flatMap]
  exact utf8Parse_flatMap_utf8Enc (List.forall_mem_map.2 fun c hc => isScalar_of_unit (encodeStream_units bytes c hc))

/-- Settles O57: the code units of an encoding are scalar values, and DECODE inverts ENCODE. -/
theorem wireRoundTrip : Obligations.WireRoundTrip := fun bytes =>
  ⟨utf8Parse_wireEncode bytes, by rw [wireDecode, utf8Parse_wireEncode, decodeStream_encodeStream]⟩

/-! ### Lengths -/

theorem encodeStream_length (bytes : List Byte) : (encodeStream bytes).length = encodedLength bytes.length := by
  rw [encodeStream, List.length_append, List.length_map, List.length_range, symbolCount, encodedLength]
  split <;> rfl

/-- A data code point takes three bytes on the wire, as it lies in 0x800..0xFFFF. -/
theorem utf8Enc_laneEnc_length (sym : Symbol) : (utf8Enc ((laneEnc sym).setWidth 21)).length = 3 := by
  have hdata := (isDataUnit_iff _).1 (isDataUnit_laneEnc sym)
  have hcp := setWidth_codePoint_toNat (laneEnc sym)
  rw [utf8Enc, if_neg (by omega), if_neg (by omega), if_pos (by omega)]
  rfl

/-- A marker takes one byte on the wire, as it lies below 0x80. -/
theorem utf8Enc_marker_length {c : Nat} (hc : c ≤ 15) : (utf8Enc ((marker c).setWidth 21)).length = 1 := by
  have hcp := setWidth_codePoint_toNat (marker c)
  have hmarker := marker_toNat hc
  rw [utf8Enc, if_pos (by omega)]
  rfl

theorem wireEncode_length (bytes : List Byte) : (wireEncode bytes).length =
    3 * ((8 * bytes.length + 14) / 15) + if 8 * bytes.length % 15 ≠ 0 then 1 else 0 := by
  have hdata : ((List.range (symbolCount bytes.length)).map fun k =>
      (utf8Enc ((laneEnc (symbolAt bytes k)).setWidth 21)).length).sum = 3 * symbolCount bytes.length := by
    simp only [utf8Enc_laneEnc_length, List.map_const', List.length_range, List.sum_replicate, smul_eq_mul, Nat.mul_comm]
  rw [wireEncode, encodeStream, List.flatMap_append, List.length_append, List.flatMap_map, List.length_flatMap, hdata,
    symbolCount]
  split
  · rw [List.flatMap_singleton, utf8Enc_marker_length (by omega)]
  · rfl

theorem markerDeficit_of_data {c : CodePoint} {sym : Symbol} (hc : classify c = .data sym) : markerDeficit c = none := by
  rw [markerDeficit, hc]

theorem markerDeficit_of_pad {c : CodePoint} {k : Int} (hc : classify c = .pad k) (hk : markerValid k = true) :
    markerDeficit c = some k := by
  rw [markerDeficit, hc]
  exact if_pos hk

theorem decodedLength_succ_of_none {last : CodePoint} (h : markerDeficit last = none) (n : Nat) :
    decodedLength (n + 1) last = (15 * (n + 1) / 8 : Nat) := by
  simp only [decodedLength, h]

theorem decodedLength_succ_of_some {last : CodePoint} {k : Int} (h : markerDeficit last = some k) (n : Nat) :
    decodedLength (n + 1) last = (15 * n / 8 : Nat) - if 8 ≤ k then 1 else 0 := by
  simp only [decodedLength, h]

/-- Data code points alone: each carries 15 bits (45_wire_adapter.md R206). -/
theorem decodedLength_data (syms : List Symbol) :
    decodedLength (dataCps syms).length ((dataCps syms).getLastD 0) = (15 * syms.length / 8 : Nat) := by
  rw [dataCps_length]
  obtain rfl | ⟨init, last, rfl⟩ := List.eq_nil_or_concat' syms
  · rfl
  · have hlast : (dataCps (init ++ [last])).getLastD 0 = (laneEnc last).setWidth 21 := by
      rw [dataCps, List.map_append, List.map_singleton, List.getLastD_concat]
    rw [hlast, List.length_append, List.length_singleton,
      decodedLength_succ_of_none (markerDeficit_of_data (classify_laneEnc last))]

/-- With a marker at the end, the data code points before it count, less a trimmed byte. -/
theorem decodedLength_data_marker (syms : List Symbol) {c : CodePoint} {k : Int} (hc : classify c = .pad k)
    (hk : markerValid k = true) : decodedLength (dataCps syms ++ [c]).length ((dataCps syms ++ [c]).getLastD 0) =
      (15 * syms.length / 8 : Nat) - if 8 ≤ k then 1 else 0 := by
  rw [List.length_append, dataCps_length, List.length_singleton, List.getLastD_concat,
    decodedLength_succ_of_some (markerDeficit_of_pad hc hk)]

/-- decodedLength is the number of bytes DECODE gives (42_decoder.md R160). -/
theorem decodeStream_length {cps : List CodePoint} {out : List Byte} (h : decodeStream cps = .ok out) :
    (out.length : Int) = decodedLength cps.length (cps.getLastD 0) := by
  obtain ⟨syms, rfl | ⟨c, k, rfl, hc⟩⟩ := shape_of_decodeFrom_eq_ok cps h
  · obtain rfl := Except.ok.inj ((decodeStream_data syms).symm.trans h)
    rw [decodedLength_data, completedBytes_length]
  · obtain ⟨⟨hvalid, htrim⟩, rfl⟩ := (decodeStream_data_marker_eq_ok_iff hc).1 h
    rw [decodedLength_data_marker syms hc hvalid, trimmedBytes_length]
    by_cases hk : 8 ≤ k
    · have hbytes := List.length_pos_iff.2 (htrim ((padTrim_iff k).2 hk))
      rw [completedBytes_length] at hbytes
      rw [if_pos hk, if_pos hk]
      omega
    · rw [if_neg hk, if_neg hk]
      omega

/-- Settles O56: one length lemma for each clause. -/
theorem lengthPredictorsAgree : Obligations.LengthPredictorsAgree :=
  ⟨encodeStream_length, wireEncode_length, fun _ _ => decodeStream_length⟩

end Sys2Proof.Machine
end
